-- ==== Sys2Proof/Word.lean ====
section
/-! DEFINITION. The values the engine works on: bytes, channel ids, packets, messages, error kinds, connection states, and the events and
answers of the outside world (00_scope.md R6, 10_state.md R11, R12, R17, 45_session_driver.md R140, R155, R156). -/

namespace Sys2Proof

/-- A byte, bit 0 the least significant (R6). -/
abbrev Byte := BitVec 8

/-- A packet: a string of bytes, byte 0 first on the wire (R11, R50). A packet of the engine has exactly `REPORT_SIZE` of them. -/
abbrev Packet := List Byte

/-- A channel id: four opaque bytes in wire order, never a number (R34). -/
structure ChannelId where
  b0 : Byte
  b1 : Byte
  b2 : Byte
  b3 : Byte
deriving DecidableEq, Repr, Inhabited

/-- The four bytes of a channel id in wire order (R34). -/
def ChannelId.bytes (c : ChannelId) : List Byte := [c.b0, c.b1, c.b2, c.b3]

/-- The reserved broadcast channel id `FF FF FF FF` (R34, R45). -/
def ChannelId.broadcast : ChannelId := ⟨0xFF, 0xFF, 0xFF, 0xFF⟩

/-- A message (R12). `bcnt` is the length of `payload`, which R12 makes the same number. -/
structure Message where
  cid : ChannelId
  cmd : BitVec 7
  payload : List Byte
deriving DecidableEq, Repr, Inhabited

/-- The declared length of a message: "payload (byte sequence of exactly payload_length bytes)" (R12). -/
def Message.bcnt (m : Message) : Nat := m.payload.length

/-- The three kinds of protocol error; "No other error kind exists" (R160). -/
inductive ErrorKind where
  | invalidCommand
  | invalidSequence
  | messageTimeout
deriving DecidableEq, Repr, Inhabited

/-- The connection states the transport reports (R17). -/
inductive ConnState where
  | disconnected
  | connected
  | configured
deriving DecidableEq, Repr, Inhabited

/-- The reasons of the sticky engine fault (R19): one. -/
inductive FaultReason where
  | channelSpaceExhausted
deriving DecidableEq, Repr, Inhabited

/-- The byte order of the channel id inside the INIT response (R4, R35). -/
inductive ByteOrder where
  | little
  | big
deriving DecidableEq, Repr, Inhabited

/-- `env`: the transport's answers for one frame tick, under no law (R155). `trySend` is whether the packet offered is accepted. -/
structure TransportAnswers where
  dataAvailable : Bool
  tryReceive : Option Packet
  readyToSend : Bool
  trySend : Bool
deriving DecidableEq, Repr, Inhabited

/-- The four events, one for each step (R140). -/
inductive Event where
  | reset
  | setConn (c : ConnState)
  | frame (env : TransportAnswers)
  | process
deriving DecidableEq, Repr, Inhabited

/-- The coarse status signals (R156). -/
inductive Status where
  | ready
  | error
  | notReady
  | enumerating
deriving DecidableEq, Repr, Inhabited

/-- What the engine does at its boundary: a call of `try_receive` with its answer, a call of `try_send` with the packet offered and its answer
(R40, R155), or a status event (R156). -/
inductive Output where
  | tryReceive (answer : Option Packet)
  | trySend (p : Packet) (accepted : Bool)
  | status (x : Status)
deriving DecidableEq, Repr, Inhabited

end Sys2Proof
end

