-- ==== Sys2Proof/Config.lean ====
section
/-! DEFINITION. The implementation parameters of 00_scope.md R4, their derived constants (R5), the constraints on them, the reference values,
and the two free sources: the OPEN capability byte and the events of the outside world. -/

namespace Sys2Proof

/-- The parameters of R4. "The parameters ... are fixed when the block is built and cannot be changed at run time" (R182). -/
structure Config where
  reportSize : Nat
  queueLen : Nat
  tickDivider : Nat
  cmdPing : BitVec 7
  cmdInit : BitVec 7
  cmdError : BitVec 7
  errInvalidCmd : Byte
  errInvalidSeq : Byte
  errMsgTimeout : Byte
  protocolVersion : Byte
  deviceVersion : Byte × Byte × Byte
  capabilities : Byte
  cidByteOrder : ByteOrder
  idleTickBudget : Option Nat
deriving DecidableEq, Repr, Inhabited

/-- `INIT_PAYLOAD_LENGTH` (R5). -/
def Config.initPayloadLength (c : Config) : Nat := c.reportSize - 7

/-- `CONT_PAYLOAD_LENGTH` (R5). -/
def Config.contPayloadLength (c : Config) : Nat := c.reportSize - 5

/-- `MAX_CONT` (R5): "continuation packets per message at most". -/
def Config.maxCont : Nat := 128

/-- `MAX_MSG` (R5): the protocol-level size ceiling. -/
def Config.maxMsg (c : Config) : Nat := c.initPayloadLength + Config.maxCont * c.contPayloadLength

/-- The longest payload of a message that can be fragmented: at most `MAX_MSG` (R91), and a `bcnt` of at most 65535 (R12). -/
def Config.maxPayload (c : Config) : Nat := min c.maxMsg 65535

/-- `MAX_REASM` (R5): the longest payload the queue-based reassembler can complete. -/
def Config.maxReasm (c : Config) : Nat :=
  min (c.initPayloadLength + (c.queueLen - 1) * c.contPayloadLength) c.maxPayload

/-- The constraints of R4 on the parameters. -/
abbrev Config.wf (c : Config) : Prop :=
  8 ≤ c.reportSize ∧ 1 ≤ c.queueLen ∧ 1 ≤ c.tickDivider ∧
  c.cmdInit ≠ c.cmdPing ∧ c.cmdInit ≠ c.cmdError ∧ c.cmdPing ≠ c.cmdError ∧
  c.errInvalidCmd ≠ c.errInvalidSeq ∧ c.errInvalidCmd ≠ c.errMsgTimeout ∧ c.errInvalidSeq ≠ c.errMsgTimeout ∧
  c.idleTickBudget ≠ some 0

/-- `CAPABILITIES` is OPEN, "any byte, constant for the life of the block" (R4, D6): a constant without a value (log 2). DESIGN CHOICE, safe. -/
opaque Config.openCapabilities : Byte

/-- The events of the outside world once no determined one is left, numbered: "any finite or infinite sequence of events is an execution"
(R153), the answers in them "under no law" (R155). A source without a body (log 8). DESIGN CHOICE, safe. -/
opaque Config.freeEvent : Nat → Event

/-- The reference values and defaults of R4 (log 1, 3, 4, 5). -/
def Config.reference : Config where
  reportSize := 64
  queueLen := 5
  tickDivider := 5
  cmdPing := 0x01
  cmdInit := 0x06
  cmdError := 0x3F
  errInvalidCmd := 0x01
  errInvalidSeq := 0x04
  errMsgTimeout := 0x05
  protocolVersion := 0x02
  deviceVersion := (0x00, 0x00, 0x01)
  capabilities := Config.openCapabilities
  cidByteOrder := .little
  idleTickBudget := none

end Sys2Proof
end

