-- ==== Sys2Proof/Syntax.lean ====
section
/-! DEFINITION. The instructions: one constructor for each row of spec/opcode_table.json (30_encoding.md R62). -/

namespace Sys2Proof

/-- The rows of the opcode table, at the three levels of R62: packet classes, commands of completed messages, and what the engine emits. -/
inductive Instr where
  /-- PKT.INITIAL: a packet of format INITIAL, its fields as R51 lays them out. -/
  | pktInitial (cid : ChannelId) (cmd : BitVec 7) (bcnt : BitVec 16) (data : List Byte)
  /-- PKT.CONT: a packet of format CONT, its fields as R52 lays them out. -/
  | pktCont (cid : ChannelId) (seq : BitVec 7) (data : List Byte)
  /-- CMD.INIT: a completed message whose command is `CMD_INIT` (R121); `payload` is its whole payload, the nonce first. -/
  | cmdInit (cid : ChannelId) (payload : List Byte)
  /-- CMD.PING: a completed message whose command is `CMD_PING` (R125). -/
  | cmdPing (cid : ChannelId) (payload : List Byte)
  /-- CMD.OTHER: a completed message with any other command (R126). -/
  | cmdOther (cid : ChannelId) (cmd : BitVec 7) (payload : List Byte)
  /-- RSP.INIT: the 17-byte INIT response, with its nonce and the channel id it hands out (R59). -/
  | rspInit (cid : ChannelId) (nonce : List Byte) (newCid : BitVec 32)
  /-- RSP.PING: the echo of a PING payload (R61). -/
  | rspPing (cid : ChannelId) (payload : List Byte)
  /-- RSP.ERROR: the ERROR message of a kind (R60). -/
  | rspError (cid : ChannelId) (kind : ErrorKind)
  /-- ERR.INVALID_CMD: the protocol error `InvalidCommand`, answered on `cid` (R161). -/
  | errInvalidCmd (cid : ChannelId)
  /-- ERR.INVALID_SEQ: the protocol error `InvalidSequence`, answered on `cid` (R162). -/
  | errInvalidSeq (cid : ChannelId)
  /-- ERR.MSG_TIMEOUT: the protocol error `MessageTimeout`, answered on `cid` (R164). -/
  | errMsgTimeout (cid : ChannelId)
deriving DecidableEq, Repr, Inhabited

end Sys2Proof
end

