-- ==== Sys2Proof/Machine/Codec.lean ====
section
/-! DEFINITION. The Packet Codec (40_packet_codec.md R70 to R78) and the multi-byte functions of 00_scope.md R6: every one a pure, total
function of a packet value. -/

namespace Sys2Proof.Machine

/-- `p[i]` (R6). Past the end of a string that is no packet it reads 0 (log 17); a packet of the engine has at least eight bytes (R4). -/
def byteAt (p : Packet) (i : Nat) : Byte := p.getD i 0

/-- `zeros(n)` (R6). -/
def zeros (n : Nat) : List Byte := List.replicate n 0

/-- `be16(h, l) = 256*h + l` (R6, R33). -/
def be16 (h l : Byte) : Nat := 256 * h.toNat + l.toNat

/-- The high byte of `enc_be16(v)` (R6, R33). -/
def encBe16Hi (v : Nat) : Byte := BitVec.ofNat 8 (v / 256)

/-- The low byte of `enc_be16(v)` (R6, R33). -/
def encBe16Lo (v : Nat) : Byte := BitVec.ofNat 8 (v % 256)

/-- Byte `i` of a u32, counted from the least significant (R6). -/
def u32Byte (v : BitVec 32) (i : Nat) : Byte := BitVec.ofNat 8 (v.toNat / 256 ^ i % 256)

/-- `enc32(order, v)` (R6, R35). -/
def enc32 (order : ByteOrder) (v : BitVec 32) : List Byte :=
  match order with
  | .little => [u32Byte v 0, u32Byte v 1, u32Byte v 2, u32Byte v 3]
  | .big => [u32Byte v 3, u32Byte v 2, u32Byte v 1, u32Byte v 0]

/-- The u32 that four bytes stand for in an order: the inverse of `enc32`. The engine never needs it (R34); the decoder of its responses does. -/
def dec32 (order : ByteOrder) (b0 b1 b2 b3 : Byte) : BitVec 32 :=
  match order with
  | .little => BitVec.ofNat 32 (b0.toNat + 256 * b1.toNat + 65536 * b2.toNat + 16777216 * b3.toNat)
  | .big => BitVec.ofNat 32 (b3.toNat + 256 * b2.toNat + 65536 * b1.toNat + 16777216 * b0.toNat)

/-- `is_initial(p)`: bit 7 of byte 4 (R53, R70). -/
def isInitial (p : Packet) : Bool := decide (0x80 ≤ (byteAt p 4).toNat)

/-- `is_continuation(p)` (R71). -/
def isContinuation (p : Packet) : Bool := !isInitial p

/-- `pkt_cid(p)`: bytes 0..3, order kept (R72). -/
def pktCid (p : Packet) : ChannelId := ⟨byteAt p 0, byteAt p 1, byteAt p 2, byteAt p 3⟩

/-- `pkt_cmd(p)`: byte 4 bits 6..0 of an INITIAL packet (R73). -/
def pktCmd (p : Packet) : BitVec 7 := BitVec.ofNat 7 (byteAt p 4).toNat

/-- `pkt_bcnt(p)`: bytes 5..6, big-endian (R74). -/
def pktBcnt (p : Packet) : BitVec 16 := BitVec.ofNat 16 (be16 (byteAt p 5) (byteAt p 6))

/-- `pkt_seq(p)`: byte 4 bits 6..0 of a CONT packet (R75). -/
def pktSeq (p : Packet) : BitVec 7 := BitVec.ofNat 7 (byteAt p 4).toNat

/-- `pkt_data(p)` (R76): from byte 7 of an INITIAL packet, from byte 5 of a CONT packet. -/
def pktData (p : Packet) : List Byte := if isInitial p then p.drop 7 else p.drop 5

/-- `mk_initial(cid, cmd, bcnt, d)` (R77). -/
def mkInitial (c : Config) (cid : ChannelId) (cmd : BitVec 7) (bcnt : Nat) (d : List Byte) : Packet :=
  cid.bytes ++ [BitVec.ofNat 8 (0x80 + cmd.toNat), encBe16Hi bcnt, encBe16Lo bcnt] ++ d ++
    zeros (c.initPayloadLength - d.length)

/-- `mk_cont(cid, seq, d)` (R78). -/
def mkCont (c : Config) (cid : ChannelId) (seq : Nat) (d : List Byte) : Packet :=
  cid.bytes ++ [BitVec.ofNat 8 seq] ++ d ++ zeros (c.contPayloadLength - d.length)

/-- `code(kind)` (R57). -/
def errorCode (c : Config) : ErrorKind → Byte
  | .invalidCommand => c.errInvalidCmd
  | .invalidSequence => c.errInvalidSeq
  | .messageTimeout => c.errMsgTimeout

/-- `error_msg(cid, kind)` (R60, R127). -/
def errorMsg (c : Config) (cid : ChannelId) (kind : ErrorKind) : Message := ⟨cid, c.cmdError, [errorCode c kind]⟩

/-- The payload of the INIT response: nonce, new channel id, protocol version, device version, capabilities (R59, R121). -/
def initResponsePayload (c : Config) (nonce : List Byte) (newCid : BitVec 32) : List Byte :=
  nonce ++ enc32 c.cidByteOrder newCid ++
    [c.protocolVersion, c.deviceVersion.1, c.deviceVersion.2.1, c.deviceVersion.2.2, c.capabilities]

/-- The INIT response: "respond on the *same* channel the request arrived on", with command `CMD_INIT` (R121, D9). -/
def initResponse (c : Config) (cid : ChannelId) (nonce : List Byte) (newCid : BitVec 32) : Message :=
  ⟨cid, c.cmdInit, initResponsePayload c nonce newCid⟩

/-- The PING response: payload, length and channel unchanged (R61, R125). -/
def pingResponse (c : Config) (cid : ChannelId) (payload : List Byte) : Message := ⟨cid, c.cmdPing, payload⟩

end Sys2Proof.Machine
end

