-- ==== Sys2Proof/Machine/Fragmenter.lean ====
section
/-! DEFINITION. The Message Codec's fragmenter: 42_fragmenter.md R90 to R93. -/

namespace Sys2Proof.Machine

/-- `ceil_div(a, b)` (R6). -/
def ceilDiv (a b : Nat) : Nat := (a + b - 1) / b

/-- `ncont(L)`: how many continuation packets carry a payload of `L` bytes (R55, R90). -/
def ncont (c : Config) (len : Nat) : Nat :=
  if len ≤ c.initPayloadLength then 0 else ceilDiv (len - c.initPayloadLength) c.contPayloadLength

/-- `npkts(L)` (R55, R90). -/
def npkts (c : Config) (len : Nat) : Nat := 1 + ncont c len

/-- The payload bytes that continuation packet `k` carries: `m.payload[lo .. hi-1]` (R93). -/
def contSlice (c : Config) (payload : List Byte) (k : Nat) : List Byte :=
  (payload.drop (c.initPayloadLength + k * c.contPayloadLength)).take c.contPayloadLength

/-- The initial packet of a message (R92). -/
def fragmentHead (c : Config) (m : Message) : Packet :=
  mkInitial c m.cid m.cmd m.bcnt (m.payload.take c.initPayloadLength)

/-- `fragment(m)`: the initial packet, then the continuation packets in order (R92, R93). -/
def fragment (c : Config) (m : Message) : List Packet :=
  fragmentHead c m ::
    (List.range (ncont c m.bcnt)).map fun k => mkCont c m.cid k (contSlice c m.payload k)

end Sys2Proof.Machine
end

