-- ==== Sys2Proof/Machine/Reassembler.lean ====
section
/-! DEFINITION. The Message Codec's reassembler: 43_reassembler.md R100 to R111. It reads packets through an indexed peek and changes
nothing; `peekAt` is that peek (of a queue in the engine, of a list in the decoder), and what a peek can fail with is left to it. -/

namespace Sys2Proof.Machine

/-- The outcomes of a reassembly attempt (R100). -/
inductive Reassembly where
  | idle
  | pending
  | complete (m : Message) (n : Nat)
  | error (kind : ErrorKind) (cid : ChannelId) (n : Nat)
deriving DecidableEq, Repr

/-- Stages 3 and 4 (R104 to R108): `payload` is what is built so far, `k` the number of continuation packets taken, `total` the declared
length. The fuel counts the packets that can still be looked at; at fuel 0 the next packet is absent (log 24). -/
def takeContinuations {ε : Type} (c : Config) (peekAt : Nat → Except ε (Option Packet)) (cid : ChannelId) (cmd : BitVec 7)
    (total : Nat) : Nat → List Byte → Nat → Except ε Reassembly
  | 0, payload, k => if payload.length < total then .ok .pending else .ok (.complete ⟨cid, cmd, payload⟩ (k + 1))
  | fuel + 1, payload, k =>
    if payload.length < total then
      match peekAt (k + 1) with
      | .error e => .error e
      | .ok none => .ok .pending
      | .ok (some q) =>
        if isInitial q then .ok (.error .invalidSequence (pktCid q) (k + 2))
        else if (pktSeq q).toNat ≠ k then .ok (.error .invalidSequence (pktCid q) (k + 2))
        else
          takeContinuations c peekAt cid cmd total fuel
            (payload ++ (q.drop 5).take (min c.contPayloadLength (total - payload.length))) (k + 1)
    else .ok (.complete ⟨cid, cmd, payload⟩ (k + 1))

/-- Stages 2 to 4 (R103 to R108) for an initial packet with these header fields and data. -/
def reassembleFrom {ε : Type} (c : Config) (peekAt : Nat → Except ε (Option Packet)) (fuel : Nat)
    (cid : ChannelId) (cmd : BitVec 7) (bcnt : BitVec 16) (data : List Byte) : Except ε Reassembly :=
  takeContinuations c peekAt cid cmd bcnt.toNat fuel (data.take (min bcnt.toNat c.initPayloadLength)) 0

/-- `reassemble(Q)`, all stages (R101 to R108), on whatever `peekAt` looks into. -/
def reassemble {ε : Type} (c : Config) (peekAt : Nat → Except ε (Option Packet)) (fuel : Nat) : Except ε Reassembly :=
  match peekAt 0 with
  | .error e => .error e
  | .ok none => .ok .idle
  | .ok (some p0) =>
    if isInitial p0 then reassembleFrom c peekAt fuel (pktCid p0) (pktCmd p0) (pktBcnt p0) (pktData p0)
    else .ok (.error .messageTimeout (pktCid p0) 1)

end Sys2Proof.Machine
end

