-- ==== Sys2Proof/WellFormed.lean ====
section
/-! DEFINITION. Which instructions are well formed under given parameters: the ranges that the fields of 30_encoding.md have. -/

namespace Sys2Proof

/-- A payload that can be fragmented (R12, R91). -/
def payloadFits (c : Config) (payload : List Byte) : Bool := decide (payload.length ≤ c.maxPayload)

/-- The operands of an instruction are in the ranges the encoding gives them: a data field fills its packet (R51, R52), a payload fits a message
(R91), `CMD.OTHER` is neither INIT nor PING (R126), a nonce has eight bytes (R59), an allocated id is neither 0 nor the broadcast id (R123). -/
def Instr.wf (c : Config) : Instr → Bool
  | .pktInitial _ _ _ data => decide (data.length = c.initPayloadLength)
  | .pktCont _ _ data => decide (data.length = c.contPayloadLength)
  | .cmdInit _ payload => payloadFits c payload
  | .cmdPing _ payload => payloadFits c payload
  | .cmdOther _ cmd payload => decide (cmd ≠ c.cmdInit) && decide (cmd ≠ c.cmdPing) && payloadFits c payload
  | .rspInit _ nonce newCid => decide (nonce.length = 8) && decide (newCid ≠ 0) && decide (newCid ≠ 0xFFFFFFFF)
  | .rspPing _ payload => payloadFits c payload
  | .rspError _ _ => true
  | .errInvalidCmd _ => true
  | .errInvalidSeq _ => true
  | .errMsgTimeout _ => true

end Sys2Proof
end

