-- ==== Sys2Proof/Decode.lean ====
section
/-! DEFINITION. The decoder of each place of the opcode table (30_encoding.md R53, R62, the table's column "where"), the encoder, and the reading of a
bare table word. -/

namespace Sys2Proof

open Sys2Proof.Machine

/-- Where a row's bits stand (the opcode table's "where"): in a packet, in the initial packet of a completed message, in an emitted packet, in
payload byte 0 of an emitted ERROR message. -/
inductive Place where
  | packet
  | message
  | emitted
  | errorByte
deriving DecidableEq, Repr

/-- Why bytes are refused at a place. -/
inductive DecodeError where
  /-- The bytes are not exactly one packet (R50). -/
  | wrongSize
  /-- The bytes are not exactly the packets of one completed message (R100, R108). -/
  | notOneMessage
  /-- The message carries no response command (R62: RSP.INIT, RSP.PING, RSP.ERROR). -/
  | notAResponse
  /-- A message with `CMD_INIT` whose payload is not the 17 bytes of R59. -/
  | badInitResponse
  /-- A message with `CMD_ERROR` whose payload is not one byte (R60). -/
  | badErrorResponse
  /-- A message with `CMD_ERROR` whose byte is none of the three codes (R57). -/
  | unknownErrorCode
  /-- An emitted message that is no ERROR message, where an error byte is looked for (R62). -/
  | notAnError
deriving DecidableEq, Repr

/-- The place of an instruction's row in the opcode table. -/
def Instr.place : Instr → Place
  | .pktInitial .. => .packet
  | .pktCont .. => .packet
  | .cmdInit .. => .message
  | .cmdPing .. => .message
  | .cmdOther .. => .message
  | .rspInit .. => .emitted
  | .rspPing .. => .emitted
  | .rspError .. => .emitted
  | .errInvalidCmd .. => .errorByte
  | .errInvalidSeq .. => .errorByte
  | .errMsgTimeout .. => .errorByte

/-- The packet decoder (R53, R54): "the packet decoder is total and there is no illegal packet". -/
def decodePacket (p : Packet) : Instr :=
  if isInitial p then .pktInitial (pktCid p) (pktCmd p) (pktBcnt p) (pktData p)
  else .pktCont (pktCid p) (pktSeq p) (pktData p)

/-- The bytes cut into strings of `size` bytes, at most `fuel` of them. -/
def cutPackets (size : Nat) : Nat → List Byte → List Packet
  | 0, _ => []
  | fuel + 1, bs => if bs.isEmpty then [] else bs.take size :: cutPackets size fuel (bs.drop size)

/-- `reassemble` on a packet source that is a list (R95). -/
def reassembleList (c : Config) (ps : List Packet) : Except DecodeError Reassembly :=
  reassemble c (fun n => .ok ps[n]?) ps.length

/-- The one message that a list of packets carries, whole and with no packet left over (R55, R108). -/
def messageOf (c : Config) (ps : List Packet) : Except DecodeError Message :=
  match reassembleList c ps with
  | .error e => .error e
  | .ok (.complete m n) => if n = ps.length then .ok m else .error .notOneMessage
  | .ok _ => .error .notOneMessage

/-- The one message that a string of bytes carries. -/
def decodeMessage (c : Config) (bs : List Byte) : Except DecodeError Message :=
  let ps := cutPackets c.reportSize bs.length bs
  if ps.all (fun p => p.length = c.reportSize) then messageOf c ps else .error .wrongSize

/-- Message level (R56, R62): INIT first, then PING, then every other command. -/
def commandOf (c : Config) (m : Message) : Instr :=
  if m.cmd = c.cmdInit then .cmdInit m.cid m.payload
  else if m.cmd = c.cmdPing then .cmdPing m.cid m.payload
  else .cmdOther m.cid m.cmd m.payload

/-- The kind an error byte stands for (R57). -/
def kindOf (c : Config) (b : Byte) : Option ErrorKind :=
  if b = c.errInvalidCmd then some .invalidCommand
  else if b = c.errInvalidSeq then some .invalidSequence
  else if b = c.errMsgTimeout then some .messageTimeout
  else none

/-- The ERR row of a kind (R160). -/
def errorInstr (kind : ErrorKind) (cid : ChannelId) : Instr :=
  match kind with
  | .invalidCommand => .errInvalidCmd cid
  | .invalidSequence => .errInvalidSeq cid
  | .messageTimeout => .errMsgTimeout cid

/-- An emitted INIT response (R59): 17 bytes, the parameters of the block in the last five, an id the allocator can give (R123). -/
def initResponseOf (c : Config) (m : Message) : Except DecodeError Instr :=
  let nonce := m.payload.take 8
  let newCid := dec32 c.cidByteOrder (m.payload.getD 8 0) (m.payload.getD 9 0) (m.payload.getD 10 0) (m.payload.getD 11 0)
  if m.payload.length = 17 ∧ m.payload = initResponsePayload c nonce newCid ∧ newCid ≠ 0 ∧ newCid ≠ 0xFFFFFFFF then
    .ok (.rspInit m.cid nonce newCid)
  else .error .badInitResponse

/-- An emitted ERROR response (R60). -/
def errorResponseOf (c : Config) (m : Message) : Except DecodeError Instr :=
  match m.payload with
  | [b] =>
    match kindOf c b with
    | some kind => .ok (.rspError m.cid kind)
    | none => .error .unknownErrorCode
  | _ => .error .badErrorResponse

/-- What an emitted message is (R62: the RSP rows). -/
def responseOf (c : Config) (m : Message) : Except DecodeError Instr :=
  if m.cmd = c.cmdInit then initResponseOf c m
  else if m.cmd = c.cmdPing then .ok (.rspPing m.cid m.payload)
  else if m.cmd = c.cmdError then errorResponseOf c m
  else .error .notAResponse

/-- The ERR row of an emitted ERROR message, told by its payload byte 0 (R62). -/
def errorRowOf : Instr → Except DecodeError Instr
  | .rspError cid kind => .ok (errorInstr kind cid)
  | _ => .error .notAnError

/-- The decoder: bytes at a place to the instruction of that place's rows, or a refusal by name. -/
def decode (c : Config) (place : Place) (bs : List Byte) : Except DecodeError Instr :=
  match place with
  | .packet => if bs.length = c.reportSize then .ok (decodePacket bs) else .error .wrongSize
  | .message => (decodeMessage c bs).map (commandOf c)
  | .emitted => (decodeMessage c bs).bind (responseOf c)
  | .errorByte => ((decodeMessage c bs).bind (responseOf c)).bind errorRowOf

/-- The message whose packets an instruction of message level or of an emitted row stands for. -/
def Instr.message (c : Config) : Instr → Option Message
  | .pktInitial .. => none
  | .pktCont .. => none
  | .cmdInit cid payload => some ⟨cid, c.cmdInit, payload⟩
  | .cmdPing cid payload => some ⟨cid, c.cmdPing, payload⟩
  | .cmdOther cid cmd payload => some ⟨cid, cmd, payload⟩
  | .rspInit cid nonce newCid => some (initResponse c cid nonce newCid)
  | .rspPing cid payload => some (pingResponse c cid payload)
  | .rspError cid kind => some (errorMsg c cid kind)
  | .errInvalidCmd cid => some (errorMsg c cid .invalidCommand)
  | .errInvalidSeq cid => some (errorMsg c cid .invalidSequence)
  | .errMsgTimeout cid => some (errorMsg c cid .messageTimeout)

/-- The packets that carry an instruction. -/
def encodePackets (c : Config) (i : Instr) : List Packet :=
  match i, i.message c with
  | .pktInitial cid cmd bcnt data, _ => [mkInitial c cid cmd bcnt.toNat data]
  | .pktCont cid seq data, _ => [mkCont c cid seq.toNat data]
  | _, some m => fragment c m
  | _, none => []

/-- The encoder: the bytes of an instruction, packet after packet, byte 0 first (R51, R52, R55). -/
def encode (c : Config) (i : Instr) : List Byte := (encodePackets c i).flatten

/-- The low `nbits` bits of a table word as bytes from the first one on, zeros above. -/
def tableBytes (nbits w count : Nat) : List Byte :=
  (List.range count).map fun i => BitVec.ofNat 8 (w % 2 ^ nbits / 256 ^ i)

/-- A table word laid out from packet byte 4 on, the channel id zero. -/
def tablePacket (c : Config) (nbits w : Nat) : Packet := zeros 4 ++ tableBytes nbits w (c.reportSize - 4)

/-- A table word laid out as payload byte 0 of an ERROR message on channel id zero (packet byte 7). -/
def tableErrorPacket (c : Config) (nbits w : Nat) : Packet :=
  mkInitial c ⟨0, 0, 0, 0⟩ c.cmdError 1 (tableBytes nbits w 1)

/-- The rows with mask 0xFF that stand at packet byte 4: CMD.INIT and CMD.PING, then the RSP rows as far as the packet laid out is a valid response;
an ERROR message without its error byte is none, so the bare 8-bit word of RSP.ERROR is refused here (log 12). DESIGN CHOICE, unsafe. -/
def decodeExactRow (c : Config) (nbits w : Nat) : Option Instr :=
  match decode c .message (tablePacket c nbits w) with
  | .ok (.cmdInit cid payload) => some (.cmdInit cid payload)
  | .ok (.cmdPing cid payload) => some (.cmdPing cid payload)
  | _ =>
    match decode c .emitted (tablePacket c nbits w) with
    | .ok i => some i
    | .error _ => none

/-- The ERR rows: 8 bits, at payload byte 0 of an ERROR message. -/
def decodeErrorRow (c : Config) (nbits w : Nat) : Option Instr :=
  if nbits ≤ 8 then
    match decode c .errorByte (tableErrorPacket c nbits w) with
    | .ok i => some i
    | .error _ => none
  else none

/-- A bare table word under given parameters. It does not say at which place of the table it stands, and the rows overlap; the most specific row
is taken, as R62 has it for the CMD rows: rows with mask 0xFF before rows with mask 0x80, requests before what the engine emits, and PKT.INITIAL
before CMD.OTHER, which R62 gives the lowest priority. A row with mask 0xFF is taken only where the packet laid out, zeros behind the word, is whole
and valid at its place: the 8-bit word 0xBF of RSP.ERROR has length 0 there and no error byte (R60), so it reads as PKT.INITIAL (log 12). DESIGN
CHOICE, unsafe. -/
def decodeTableWordWith (c : Config) (nbits w : Nat) : Option Instr :=
  match decodeExactRow c nbits w with
  | some i => some i
  | none =>
    match decodeErrorRow c nbits w with
    | some i => some i
    | none =>
      match decode c .packet (tablePacket c nbits w) with
      | .ok i => some i
      | .error _ => none

/-- The instruction of a bare table word; the table lists the default codes (R62), so the parameters are the reference ones. -/
def decodeTableWord (nbits w : Nat) : Option Instr := decodeTableWordWith Config.reference nbits w

end Sys2Proof
end

