-- ==== Sys2Proof/Machine/State.lean ====
section
/-! DEFINITION. The engine's state (10_state.md R10 to R19), the parameters it was built with (R4), the outside world's inputs and the engine's outputs;
the state after reset (R24, R180); the reasons a step can stop. -/

namespace Sys2Proof.Machine

/-- Queue storage: (slot index, packet) pairs, indices strictly rising. The unit of addressing is one whole packet (R30). A slot that is not listed
has not been written since reset; its contents are unspecified (R13, R24) and reading it is a fault (log 7). -/
abbrev Memory := List (Nat × Packet)

/-- The canonical form of queue storage: indices strictly rising, so that equal storage is equal data. -/
abbrev Memory.wf (m : Memory) : Prop := m.Pairwise fun a b => a.1 < b.1

/-- A packet queue: read cursor, count and slots (R13). -/
structure Queue where
  head : Nat
  len : Nat
  slot : Memory
deriving DecidableEq, Repr, Inhabited

/-- The empty queue after reset: every slot unspecified (R24). -/
def Queue.empty : Queue := ⟨0, 0, []⟩

/-- Why the machine stops with a fault of the MODEL. The engine's own fault is the register `State.fault`, in a next state (R19, R124). -/
inductive Fault where
  /-- Raised by the queues' `peek` (R84) when the slot it would read has not been written since reset: "A model must not read an unspecified slot" (R24).
  No step from a state with the queue invariant raises it. Safe: the model stops where the engine would go on with unspecified bytes. -/
  | unspecifiedSlot
deriving DecidableEq, Repr

/-- Why a step is refused. -/
inductive Refusal where
  /-- Raised by `exec` for an instruction without a meaning (no arm has it). Safe. -/
  | notModelled (mnemonic : String)
  /-- Raised by the fragmenter for a message longer than `MAX_MSG` or than 65535 bytes: "for a longer message it has no meaning and a model refuses it"
  (R91). Safe: no such message arises inside the engine. -/
  | messageTooLong
  /-- Raised by the receive shuttle when the transport's answer is not `REPORT_SIZE` bytes long: there is no such packet (R50, R155). Safe. -/
  | packetSizeMismatch
deriving DecidableEq, Repr

/-- The state. `config` is written by no step (R182); `pending`, `freeIndex` and `outputs` are the model's own: the events the outside world is set to
issue, how many were drawn from the free source, and what crossed the boundary. -/
structure State where
  config : Config
  inq : Queue
  outq : Queue
  chanCounter : BitVec 32
  tickDiv : Nat
  connState : ConnState
  idleTicks : Nat
  fault : Option FaultReason
  pending : List Event
  freeIndex : Nat
  outputs : List Output
deriving DecidableEq, Repr

/-- The outcome of a step or of an instruction. -/
abbrev Outcome := Host.Outcome State Fault Refusal

/-- The engine built with given parameters, right after RESET (R24, R180), nothing determined about the outside world (log 8). -/
def State.resetWith (c : Config) : State where
  config := c
  inq := Queue.empty
  outq := Queue.empty
  chanCounter := 1
  tickDiv := 0
  connState := .disconnected
  idleTicks := 0
  fault := none
  pending := []
  freeIndex := 0
  outputs := []

/-- The engine with the reference parameters of R4, right after reset (log 1). -/
def State.reset : State := State.resetWith Config.reference

/-- `INQ <- q` (R6). -/
def State.withInq (s : State) (q : Queue) : State := { s with inq := q }
/-- `OUTQ <- q`. -/
def State.withOutq (s : State) (q : Queue) : State := { s with outq := q }
/-- `chan_counter <- v`. -/
def State.withChanCounter (s : State) (v : BitVec 32) : State := { s with chanCounter := v }
/-- `tick_div <- n`. -/
def State.withTickDiv (s : State) (n : Nat) : State := { s with tickDiv := n }
/-- `conn_state <- c`. -/
def State.withConnState (s : State) (c : ConnState) : State := { s with connState := c }
/-- `idle_ticks <- n`. -/
def State.withIdleTicks (s : State) (n : Nat) : State := { s with idleTicks := n }
/-- `fault <- f`. -/
def State.withFault (s : State) (f : Option FaultReason) : State := { s with fault := f }
/-- The outside world's determined events become `es`. -/
def State.withPending (s : State) (es : List Event) : State := { s with pending := es }
/-- The index of the next free event becomes `n`. -/
def State.withFreeIndex (s : State) (n : Nat) : State := { s with freeIndex := n }
/-- The engine does `o` at its boundary. -/
def State.output (s : State) (o : Output) : State := { s with outputs := s.outputs ++ [o] }

end Sys2Proof.Machine
end

