-- ==== Sys2Proof/Machine/Flags.lean ====
section
/-! DEFINITION. The condition flags: the derived predicates of each queue (10_state.md R21, 41_packet_queue.md R85, R86), and the gate that the modes
make (45_session_driver.md R141, 60_exceptions.md R172). -/

namespace Sys2Proof.Machine

/-- `is_empty(Q)` (R85). -/
def isEmpty (q : Queue) : Bool := decide (q.len = 0)

/-- `is_full(Q)`, of a queue of `cap` slots (R86). -/
def isFull (cap : Nat) (q : Queue) : Bool := decide (q.len = cap)

/-- The gate of R141: no fault, and the transport has reported `configured`. -/
def gateOpen (s : State) : Bool := decide (s.fault = none) && decide (s.connState = .configured)

end Sys2Proof.Machine
end

