-- ==== Sys2Proof/Machine/Operands.lean ====
section
/-! DEFINITION. Operand forms: physical slot addresses (20_memory.md R31), and the operands an INIT request carries (30_encoding.md R58). -/

namespace Sys2Proof.Machine

/-- The physical slot of logical offset `n` from the head (R31). -/
def slotIndex (cap : Nat) (q : Queue) (n : Nat) : Nat := (q.head + n) % cap

/-- The tail slot, where push writes (R31). -/
def tailIndex (cap : Nat) (q : Queue) : Nat := (q.head + q.len) % cap

/-- The nonce of an INIT request: payload bytes 0..7; any further bytes are ignored (R58). -/
def nonceOf (payload : List Byte) : List Byte := payload.take 8

/-- The short-INIT condition: `bcnt < 8` (R122). -/
def isShortInit (payload : List Byte) : Bool := decide (payload.length < 8)

end Sys2Proof.Machine
end

