-- ==== Sys2Proof/Machine/Ops.lean ====
section
/-! DEFINITION. The named operations: queue storage (20_memory.md R30, R31, R39), the packet queue (41_packet_queue.md R80 to R86), emission
(42_fragmenter.md R94), retirement and channel allocation, and taking a protocol error with the return from it (60_exceptions.md R163, R165). -/

namespace Sys2Proof.Machine

/-- `MemRead(Q, i)` (R6): the packet in slot `i`, none when the slot has not been written since reset. -/
def Memory.read : Memory → Nat → Option Packet
  | [], _ => none
  | (j, p) :: m, i => if i = j then some p else Memory.read m i

/-- `MemWrite(Q, i, p)` (R6), keeping the indices strictly rising. -/
def Memory.write : Memory → Nat → Packet → Memory
  | [], i, p => [(i, p)]
  | (j, r) :: m, i, p =>
    if i < j then (i, p) :: (j, r) :: m
    else if i = j then (i, p) :: m
    else (j, r) :: Memory.write m i p

/-- `push(Q, p)` (R80): appends at the tail, or is silently dropped when the queue is full. -/
def push (cap : Nat) (q : Queue) (p : Packet) : Queue :=
  if q.len < cap then { q with slot := q.slot.write (tailIndex cap q) p, len := q.len + 1 } else q

/-- `pop(Q)` (R81): slot storage is not touched. -/
def pop (cap : Nat) (q : Queue) : Queue :=
  if 0 < q.len then { q with head := (q.head + 1) % cap, len := q.len - 1 } else q

/-- `pop_n(Q, n)` (R82). -/
def popN (cap : Nat) : Nat → Queue → Queue
  | 0, q => q
  | n + 1, q => if q.len = 0 then q else popN cap n (pop cap q)

/-- `peek_n(Q, n)` (R84): absent past the end, else the packet in its slot; a slot that nothing has written is a fault (log 7). -/
def peekN (cap : Nat) (q : Queue) (n : Nat) : Except Fault (Option Packet) :=
  if q.len ≤ n then .ok none
  else
    match q.slot.read (slotIndex cap q n) with
    | some p => .ok (some p)
    | none => .error .unspecifiedSlot

/-- `peek(Q)` (R83). -/
def peek (cap : Nat) (q : Queue) : Except Fault (Option Packet) := peekN cap q 0

/-- The packets of a list pushed in order (R94). -/
def pushAll (cap : Nat) (q : Queue) (ps : List Packet) : Queue := ps.foldl (push cap) q

/-- What runs after a part of a step: only a next state goes on. -/
def andThen (o : Outcome) (k : State → Outcome) : Outcome :=
  match o with
  | .next s => k s
  | .fault r => .fault r
  | .refused r => .refused r

/-- The gate of R141 around what an instruction does: outside `configured`, or with a fault, "nothing is received, sent, reassembled or dispatched". -/
def whenOpen (s : State) (o : Outcome) : Outcome := if gateOpen s then o else .next s

/-- `if IDLE_TICK_BUDGET != none then idle_ticks <- 0` (R147, R148, R149). -/
def clearIdle (s : State) : State := if s.config.idleTickBudget = none then s else s.withIdleTicks 0

/-- Retirement: `pop_n(INQ, n)` and the clearing of `idle_ticks` that goes with it (R148, R149). -/
def retire (n : Nat) (s : State) : State := clearIdle (s.withInq (popN s.config.queueLen n s.inq))

/-- One turn of the resynchronising scan: `pop(INQ)` and the clearing of `idle_ticks` (R147). -/
def discardHead (s : State) : State := clearIdle (s.withInq (pop s.config.queueLen s.inq))

/-- `emit(m)`: the fragments of `m` pushed into OUTQ in order, those that find it full dropped (R94). A message that `fragment` is not defined for is
refused (R91). -/
def emit (m : Message) (s : State) : Outcome :=
  if m.bcnt ≤ s.config.maxPayload then .next (s.withOutq (pushAll s.config.queueLen s.outq (fragment s.config m)))
  else .refused .messageTooLong

/-- `status_event(x)` (R156). -/
def statusEvent (x : Status) (s : State) : State := s.output (.status x)

/-- `alloc_channel()` (R123): the id and the state after it, or nothing when the counter is exhausted (R124). -/
def allocChannel (s : State) : Option (BitVec 32 × State) :=
  if s.chanCounter = 0xFFFFFFFF then none else some (s.chanCounter, s.withChanCounter (s.chanCounter + 1))

/-- `raise Fault(ChannelSpaceExhausted)` (R6, R124): the sticky register is set, nothing else changes. -/
def raiseExhausted (s : State) : State := s.withFault (some .channelSpaceExhausted)

/-- The kinds the reassembler and the idle budget raise are announced by a status event `error`; a dispatcher error is not (R149, R151, R163 (3)). -/
def errorStatus (kind : ErrorKind) (s : State) : State :=
  match kind with
  | .invalidCommand => s
  | .invalidSequence => statusEvent .error s
  | .messageTimeout => statusEvent .error s

/-- TAKING A PROTOCOL ERROR, the engine's exception entry (R163): the ERROR message is queued (2), then the status event is emitted (3); the packets
the error names are retired by `retire` before it (1). Nothing is saved, the mode does not change. THE RETURN is no operation: "Recovery needs no
return instruction: the PROCESS step that handled the error ends" (R165), and the next one begins with the resynchronising scan. -/
def takeError (kind : ErrorKind) (cid : ChannelId) (s : State) : Outcome :=
  andThen (emit (errorMsg s.config cid kind) s) fun t => .next (errorStatus kind t)

end Sys2Proof.Machine
end

