-- ==== Sys2Proof/Machine/Responses.lean ====
section
/-! DEFINITION. The RSP rows: the response messages the engine emits (30_encoding.md R59 to R61, 42_fragmenter.md R94). -/

namespace Sys2Proof.Machine

/-- RSP.INIT (R59, R121). -/
def execRspInit (cid : ChannelId) (nonce : List Byte) (newCid : BitVec 32) (s : State) : Outcome :=
  whenOpen s (emit (initResponse s.config cid nonce newCid) s)

/-- RSP.PING (R61, R125). -/
def execRspPing (cid : ChannelId) (payload : List Byte) (s : State) : Outcome :=
  whenOpen s (emit (pingResponse s.config cid payload) s)

/-- RSP.ERROR (R60, R127). -/
def execRspError (cid : ChannelId) (kind : ErrorKind) (s : State) : Outcome :=
  whenOpen s (emit (errorMsg s.config cid kind) s)

end Sys2Proof.Machine
end

