-- ==== Sys2Proof/Machine/Errors.lean ====
section
/-! DEFINITION. The ERR rows: the three protocol errors and their answers (60_exceptions.md R160 to R164). The packets an error retires are popped by
what raises it, before the answer (R148, R149, R151, R163 (1)). -/

namespace Sys2Proof.Machine

/-- ERR.INVALID_CMD (R161): answered by a normal ERROR message, no status event (R163 (3)). -/
def execErrInvalidCmd (cid : ChannelId) (s : State) : Outcome := whenOpen s (takeError .invalidCommand cid s)

/-- ERR.INVALID_SEQ (R162): the ERROR message, then the status event `error`. -/
def execErrInvalidSeq (cid : ChannelId) (s : State) : Outcome := whenOpen s (takeError .invalidSequence cid s)

/-- ERR.MSG_TIMEOUT (R164): the ERROR message, then the status event `error`. -/
def execErrMsgTimeout (cid : ChannelId) (s : State) : Outcome := whenOpen s (takeError .messageTimeout cid s)

/-- The error of a kind, raised on a channel (R149). -/
def raiseError (kind : ErrorKind) (cid : ChannelId) (s : State) : Outcome :=
  match kind with
  | .invalidCommand => execErrInvalidCmd cid s
  | .invalidSequence => execErrInvalidSeq cid s
  | .messageTimeout => execErrMsgTimeout cid s

end Sys2Proof.Machine
end

