-- ==== Sys2Proof/Machine/Commands.lean ====
section
/-! DEFINITION. The CMD rows: the Command Dispatcher (44_dispatcher.md R120 to R129). The request's packets have been retired before a command runs
(R148). -/

namespace Sys2Proof.Machine

/-- CMD.INIT (R121): a short request is answered with `InvalidCommand` (R122); an exhausted counter faults the engine (R124); else a channel id is
allocated (R123) and handed out in the INIT response. -/
def execCmdInit (cid : ChannelId) (payload : List Byte) (s : State) : Outcome :=
  whenOpen s
    (if isShortInit payload then execErrInvalidCmd cid s
    else
      match allocChannel s with
      | none => .next (raiseExhausted s)
      | some (newCid, t) => execRspInit cid (nonceOf payload) newCid t)

/-- CMD.PING (R125): the request's payload is echoed on its channel. -/
def execCmdPing (cid : ChannelId) (payload : List Byte) (s : State) : Outcome := whenOpen s (execRspPing cid payload s)

/-- CMD.OTHER (R126): answered with `InvalidCommand`, whatever the command and the payload. -/
def execCmdOther (cid : ChannelId) (_cmd : BitVec 7) (_payload : List Byte) (s : State) : Outcome :=
  whenOpen s (execErrInvalidCmd cid s)

/-- `dispatch(m)` (R120): exactly one branch runs. -/
def dispatch (m : Message) (s : State) : Outcome :=
  if m.cmd = s.config.cmdInit then execCmdInit m.cid m.payload s
  else if m.cmd = s.config.cmdPing then execCmdPing m.cid m.payload s
  else execCmdOther m.cid m.cmd m.payload s

end Sys2Proof.Machine
end

