-- ==== Sys2Proof/Machine/Packets.lean ====
section
/-! DEFINITION. The PKT rows: what a PROCESS step does with the packet at the head of INQ (43_reassembler.md R102 to R108, 45_session_driver.md R147 to
R151). -/

namespace Sys2Proof.Machine

/-- Outcome `Pending` (R150, R151): nothing, unless an idle budget is set and used up; then the whole of INQ is retired and the stalled message's
channel is sent `MessageTimeout`. -/
def stillPending (cid : ChannelId) (s : State) : Outcome :=
  match s.config.idleTickBudget with
  | none => .next s
  | some budget => if budget ≤ s.idleTicks then execErrMsgTimeout cid (retire s.inq.len s) else .next s

/-- What the PROCESS step does with the outcome of reassembly (R146); `cid` is the channel id of the packet at the head. -/
def handleOutcome (cid : ChannelId) (r : Reassembly) (s : State) : Outcome :=
  match r with
  | .idle => .next s
  | .pending => stillPending cid s
  | .complete m n => dispatch m (retire n s)
  | .error kind bad n => raiseError kind bad (retire n s)

/-- PKT.INITIAL at the head of INQ: reassembly from stage 2 on (R103 to R108), the continuations looked up behind it in INQ, then the outcome (R148 to
R151). -/
def execPktInitial (cid : ChannelId) (cmd : BitVec 7) (bcnt : BitVec 16) (data : List Byte) (s : State) : Outcome :=
  whenOpen s
    (match reassembleFrom s.config (peekN s.config.queueLen s.inq) s.inq.len cid cmd bcnt data with
    | .error e => .fault e
    | .ok r => handleOutcome cid r s)

/-- PKT.CONT at the head of INQ: discarded silently, whatever it carries (R147). -/
def execPktCont (_cid : ChannelId) (_seq : BitVec 7) (_data : List Byte) (s : State) : Outcome :=
  whenOpen s (.next (discardHead s))

end Sys2Proof.Machine
end

