-- ==== Sys2Proof/Machine/Dispatch.lean ====
section
/-! DEFINITION. The meaning of every instruction: one arm for each row of the opcode table. -/

namespace Sys2Proof.Machine

def exec (i : Instr) (s : State) : Host.Outcome State Fault Refusal :=
  match i with
  | .pktInitial cid cmd bcnt data => Sys2Proof.Machine.execPktInitial cid cmd bcnt data s
  | .pktCont cid seq data => Sys2Proof.Machine.execPktCont cid seq data s
  | .cmdInit cid payload => Sys2Proof.Machine.execCmdInit cid payload s
  | .cmdPing cid payload => Sys2Proof.Machine.execCmdPing cid payload s
  | .cmdOther cid cmd payload => Sys2Proof.Machine.execCmdOther cid cmd payload s
  | .rspInit cid nonce newCid => Sys2Proof.Machine.execRspInit cid nonce newCid s
  | .rspPing cid payload => Sys2Proof.Machine.execRspPing cid payload s
  | .rspError cid kind => Sys2Proof.Machine.execRspError cid kind s
  | .errInvalidCmd cid => Sys2Proof.Machine.execErrInvalidCmd cid s
  | .errInvalidSeq cid => Sys2Proof.Machine.execErrInvalidSeq cid s
  | .errMsgTimeout cid => Sys2Proof.Machine.execErrMsgTimeout cid s

end Sys2Proof.Machine
end

