-- ==== Sys2Proof/Machine/Session.lean ====
section
/-! DEFINITION. The Session Driver's events that run no instruction: the tick and its two shuttles, the connection state, RESET
(45_session_driver.md R140 to R145, R152, R156, 70_reset_and_hazards.md R180), and where the next event comes from (R153). -/

namespace Sys2Proof.Machine

/-- The idle counter after the receive shuttle, with a budget (R144). -/
def idleAfterReceive (budget : Nat) (pushed : Bool) (s : State) : Nat :=
  if pushed then 0 else if isEmpty s.inq then 0 else min (s.idleTicks + 1) budget

/-- The second half of R144: the idle counter moves only when a budget is set. -/
def countIdle (pushed : Bool) (s : State) : State :=
  match s.config.idleTickBudget with
  | none => s
  | some budget => s.withIdleTicks (idleAfterReceive budget pushed s)

/-- `RX(env)`, the receive shuttle (R144): at most one packet, and only into a queue with room. A buffer that is no packet is refused (R50, log 9). -/
def receive (env : TransportAnswers) (s : State) : Outcome :=
  if !isFull s.config.queueLen s.inq && env.dataAvailable then
    match env.tryReceive with
    | none => .next (countIdle false (s.output (.tryReceive none)))
    | some p =>
      if p.length = s.config.reportSize then
        .next (countIdle true ((s.output (.tryReceive (some p))).withInq (push s.config.queueLen s.inq p)))
      else .refused .packetSizeMismatch
  else .next (countIdle false s)

/-- `TX(env)`, the transmit shuttle (R145): the oldest packet is offered, and popped only when the transport accepts it. -/
def transmit (env : TransportAnswers) (s : State) : Outcome :=
  if env.readyToSend && !isEmpty s.outq then
    match peek s.config.queueLen s.outq with
    | .error e => .fault e
    | .ok none => .next s
    | .ok (some p) =>
      let t := s.output (.trySend p env.trySend)
      if env.trySend then .next (t.withOutq (pop s.config.queueLen s.outq)) else .next t
  else .next s

/-- `SHUTTLE(env)`: RX, then TX (R143). -/
def shuttle (env : TransportAnswers) (s : State) : Outcome := andThen (receive env s) (transmit env)

/-- `FRAME(env)` (R142), under the gate of R141. -/
def frame (env : TransportAnswers) (s : State) : Outcome :=
  whenOpen s
    (if s.tickDiv + 1 = s.config.tickDivider then shuttle env (s.withTickDiv 0) else .next (s.withTickDiv (s.tickDiv + 1)))

/-- `of(s)`: the status event of a connection state (R156). -/
def statusOf : ConnState → Status
  | .disconnected => .notReady
  | .connected => .enumerating
  | .configured => .ready

/-- `SetConn(c)` (R152): taken in every state without a fault. -/
def setConn (c : ConnState) (s : State) : State :=
  if s.fault = none then statusEvent (statusOf c) (s.withConnState c) else s

/-- `RESET` (R180): every register at its reset value, every slot unspecified. The parameters (R182) and the outside world stay. -/
def resetEngine (s : State) : State :=
  { State.resetWith s.config with pending := s.pending, freeIndex := s.freeIndex, outputs := s.outputs }

/-- The event the step takes: the next one the outside world is set to issue, or one drawn from the free source (R153, log 8). -/
def nextEvent (s : State) : Event :=
  match s.pending with
  | e :: _ => e
  | [] => Config.freeEvent s.freeIndex

/-- The state once the event has been drawn. -/
def drawEvent (s : State) : State :=
  match s.pending with
  | _ :: es => s.withPending es
  | [] => s.withFreeIndex (s.freeIndex + 1)

end Sys2Proof.Machine
end

