-- ==== Sys2Proof/Machine/Process.lean ====
section
/-! DEFINITION. The PROCESS event (45_session_driver.md R146, R147): the packet at the head of INQ is fetched, decoded and executed. And `placeInstr`, the
preparation of a state so that its next step runs a given instruction. -/

namespace Sys2Proof.Machine

/-- The fetch: the packet at the head of INQ, decoded (R20: the read cursor `INQ.head` takes the place of a program counter; R53). -/
def fetch (s : State) : Except Fault (Option Instr) :=
  match peek s.config.queueLen s.inq with
  | .error e => .error e
  | .ok none => .ok none
  | .ok (some p) => .ok (some (decodePacket p))

/-- Whether an instruction is a packet that the resynchronising scan discards (R147). -/
def isStray : Instr → Bool
  | .pktCont .. => true
  | _ => false

/-- `resync()` (R147): every continuation packet in front of the first initial packet is executed, which discards it. The fuel counts the packets. -/
def resync : Nat → State → Outcome
  | 0, s => .next s
  | fuel + 1, s =>
    match fetch s with
    | .error e => .fault e
    | .ok none => .next s
    | .ok (some i) => if isStray i then andThen (exec i s) (resync fuel) else .next s

/-- The instruction at the head, if any, is executed; an empty queue is the outcome `Idle` (R101, R150). -/
def runHead (s : State) : Outcome :=
  match fetch s with
  | .error e => .fault e
  | .ok none => .next s
  | .ok (some i) => exec i s

/-- `PROCESS` (R146), under the gate of R141. -/
def process (s : State) : Outcome := whenOpen s (andThen (resync s.inq.len s) runHead)

/-- The meaning of an event (R140). -/
def takeEvent (e : Event) (s : State) : Outcome :=
  match e with
  | .reset => .next (resetEngine s)
  | .setConn c => .next (setConn c s)
  | .frame env => frame env s
  | .process => process s

/-- INQ holding exactly these packets, from its present head on. -/
def loadQueue (cap : Nat) (q : Queue) (ps : List Packet) : Queue := pushAll cap { q with len := 0 } ps

/-- The gate opened, a PROCESS event next, and INQ holding exactly these packets. -/
def placePackets (ps : List Packet) (s : State) : State :=
  { s with
    inq := loadQueue s.config.queueLen s.inq ps, connState := .configured, fault := none, pending := .process :: s.pending }

/-- What makes the engine raise an error of a kind on a channel: an unknown command (R126), an initial packet where a continuation is due (R106), an idle
budget used up by a message that is not all there (R151). -/
def placeError (kind : ErrorKind) (cid : ChannelId) (s : State) : State :=
  let c := s.config
  let stalled := mkInitial c cid c.cmdPing (c.initPayloadLength + 1) []
  match kind with
  | .invalidCommand => placePackets [mkInitial c cid c.cmdError 0 []] s
  | .invalidSequence => placePackets [stalled, mkInitial c cid c.cmdPing 0 []] s
  | .messageTimeout =>
    { placePackets [stalled] s with config := { c with idleTickBudget := some 1 }, idleTicks := 1 }

/-- The state prepared so that its very next step runs the instruction (log 13): packets and requests are put into INQ, a response is what the engine
answers to a request in INQ, an error what it raises about the packets in INQ. -/
def placeInstr (i : Instr) (s : State) : State :=
  match i with
  | .pktInitial .. => placePackets (encodePackets s.config i) s
  | .pktCont .. => placePackets (encodePackets s.config i) s
  | .cmdInit .. => placePackets (encodePackets s.config i) s
  | .cmdPing .. => placePackets (encodePackets s.config i) s
  | .cmdOther .. => placePackets (encodePackets s.config i) s
  | .rspInit cid nonce newCid =>
    (placePackets (encodePackets s.config (.cmdInit cid nonce)) s).withChanCounter newCid
  | .rspPing cid payload => placePackets (encodePackets s.config (.cmdPing cid payload)) s
  | .rspError cid kind => placeError kind cid s
  | .errInvalidCmd cid => placeError .invalidCommand cid s
  | .errInvalidSeq cid => placeError .invalidSequence cid s
  | .errMsgTimeout cid => placeError .messageTimeout cid s

end Sys2Proof.Machine
end

