-- ==== Sys2Proof/Machine/Step.lean ====
section
/-! DEFINITION. One step of the engine: one event (45_session_driver.md R140). And the placement of a table word. -/

namespace Sys2Proof.Machine

/-- One atomic step: the next event is drawn and taken (R39, R140). -/
def step (s : State) : Host.Outcome State Fault Refusal := takeEvent (nextEvent s) (drawEvent s)

/-- The state prepared so that its next step runs the instruction of a bare table word (log 12, log 13). -/
def State.withFetchWord (s : State) (nbits w : Nat) : State :=
  match decodeTableWord nbits w with
  | some i => placeInstr i s
  | none => s

end Sys2Proof.Machine
end

