-- ==== Sys2Proof/Safety.lean ====
section
/-! DEFINITION. What claims are stated in terms of: the abstract contents of a queue (10_state.md R13), the invariant of the state (R13, R15, R16, R18), what a
push of several packets does to a queue, which events the transport can issue (R50, R155), when two states cannot be told apart (R13), and when a run is
over (R154, R195). -/

namespace Sys2Proof.Machine

/-- `contents(Q)`: the queued packets, oldest first (R13). -/
def contents (cap : Nat) (q : Queue) : List Packet :=
  (List.range q.len).filterMap fun n => q.slot.read (slotIndex cap q n)

/-- The queue invariant (R13), storage in canonical form with every listed slot a packet of the block, and every queued offset in a slot that has been
written (R24: no operation reads another). -/
abbrev Queue.Inv (c : Config) (q : Queue) : Prop :=
  q.head < c.queueLen ∧ q.len ≤ c.queueLen ∧ q.slot.wf ∧
  (∀ e ∈ q.slot, e.1 < c.queueLen ∧ e.2.length = c.reportSize) ∧
  (∀ n < q.len, (q.slot.read (slotIndex c.queueLen q n)).isSome)

/-- The invariant of the engine: admitted parameters (R4), both queues (R13), `1 <= chan_counter` (R15), `tick_div < TICK_DIVIDER` (R16),
`idle_ticks` within the budget, 0 without one (R18). -/
abbrev State.Inv (s : State) : Prop :=
  s.config.wf ∧ s.inq.Inv s.config ∧ s.outq.Inv s.config ∧ s.chanCounter ≠ 0 ∧
  s.tickDiv < s.config.tickDivider ∧ s.idleTicks ≤ s.config.idleTickBudget.getD 0

/-- The packets that stand in INQ. -/
def State.inContents (s : State) : List Packet := contents s.config.queueLen s.inq

/-- The packets that stand in OUTQ. -/
def State.outContents (s : State) : List Packet := contents s.config.queueLen s.outq

/-- `q'` is `q` with the packets `ps` pushed in order: the head stays, the contents grow at the end as far as there is room, and every slot but the tail
slots that were free and are used keeps what it held (R31, R80, R94). -/
def QueuedInto (cap : Nat) (q q' : Queue) (ps : List Packet) : Prop :=
  q'.head = q.head ∧ q'.len = min cap (q.len + ps.length) ∧
  contents cap q' = (contents cap q ++ ps).take cap ∧
  ∀ i, (∀ j < ps.length, q.len + j < cap → i ≠ (q.head + (q.len + j)) % cap) → q'.slot.read i = q.slot.read i

/-- A transport's buffer is a packet: "returns a fixed-size buffer already of REPORT_SIZE bytes or nothing" (R50, R155). -/
def eventFits (c : Config) : Event → Bool
  | .frame env => env.tryReceive.all fun p => decide (p.length = c.reportSize)
  | _ => true

/-- Packets that are the continuations 0, 1, 2, ... of one message, from number `k` on (R104 to R107). -/
def inSequence : Nat → List Packet → Bool
  | _, [] => true
  | k, q :: qs => isContinuation q && decide ((pktSeq q).toNat = k) && inSequence (k + 1) qs

/-- The payload that an initial packet and its continuations carry: their data fields one after the other, cut at the declared length (R55, R104). -/
def carriedPayload (p0 : Packet) (ps : List Packet) : List Byte :=
  (pktData p0 ++ (ps.map fun q => q.drop 5).flatten).take (pktBcnt p0).toNat

/-- Two states that differ at most in queue cursors and slot storage outside the contents: "Two queue states with equal `contents` are
indistinguishable by any operation" (R13). -/
def Indistinguishable (s t : State) : Prop :=
  s.config = t.config ∧ s.inContents = t.inContents ∧ s.outContents = t.outContents ∧
  s.chanCounter = t.chanCounter ∧ s.tickDiv = t.tickDiv ∧ s.connState = t.connState ∧
  s.idleTicks = t.idleTicks ∧ s.fault = t.fault ∧ s.pending = t.pending ∧
  s.freeIndex = t.freeIndex ∧ s.outputs = t.outputs

/-- A script of events, taken one after the other (R153, R195). -/
def runEvents : List Event → State → Outcome
  | [], s => .next s
  | e :: es, s => andThen (takeEvent e s) (runEvents es)

/-- `TICK(rx, tx_ok)` of the reference schedule (R154), from `tick_div = 0`: the FRAMEs that only count, the FRAME that is a tick, one PROCESS. -/
def referenceTick (c : Config) (rx : Option Packet) (txOk : Bool) : List Event :=
  let env : TransportAnswers := ⟨rx.isSome, rx, txOk, txOk⟩
  List.replicate (c.tickDivider - 1) (.frame env) ++ [.frame env, .process]

/-- Quiescent: "`INQ` is empty or holds only a `Pending` message, and a further PROCESS step would change nothing" (R195). -/
def State.Quiescent (s : State) : Prop :=
  (s.inContents = [] ∨ reassemble s.config (peekN s.config.queueLen s.inq) s.inq.len = .ok .pending) ∧
  takeEvent .process s = .next s

/-- Drained: quiescent, and OUTQ is empty (R195). -/
def State.Drained (s : State) : Prop := s.Quiescent ∧ s.outContents = []

/-- The state the machine goes on in, for a reader of one step. -/
def nextState (o : Outcome) : Option State :=
  match o with
  | .next t => some t
  | .fault _ => none
  | .refused _ => none

end Sys2Proof.Machine
end

