-- ==== Sys2Proof/Certificates/Slice0/Obligations.lean ====
section
/-! DEFINITION. The statements for the provers, each with the rule of spec/ it formalises. A statement about a next state says what changes and what does
not: `t = s.withOutq t.outq` says that nothing but OUTQ changed, and `QueuedInto` says which slots of OUTQ did. -/

open Sys2Proof Sys2Proof.Machine

/-! ## Encoding -/

/-- 30_encoding.md, 95_test_vectors.md 2.1, 2.3, 2.5: packets written out byte by byte and what they are, at each of the four places of the opcode
table. The command, error and version codes are R4's defaults (log 4); CAPABILITIES is 0 here, as in the spec's vectors. -/
def Obligations.WrittenPacketsDecode : Prop :=
  let c := { Config.reference with capabilities := 0 }
  decode c .packet ([0x01, 0, 0, 0, 0x81, 0x00, 0x03, 1, 2, 3] ++ zeros 54) =
      .ok (.pktInitial ⟨1, 0, 0, 0⟩ 0x01 3 ([1, 2, 3] ++ zeros 54)) ∧
  decode c .packet ([0, 0, 0, 0, 0xFF, 0x01, 0x00] ++ zeros 57) = .ok (.pktInitial ⟨0, 0, 0, 0⟩ 0x7F 256 (zeros 57)) ∧
  decode c .packet ([0x0A, 0x0B, 0x0C, 0x0D, 0x7F] ++ zeros 59) = .ok (.pktCont ⟨0x0A, 0x0B, 0x0C, 0x0D⟩ 127 (zeros 59)) ∧
  decode c .message ([0xFF, 0xFF, 0xFF, 0xFF, 0x86, 0x00, 0x08, 0x11, 0x22, 0x33, 0x44, 0x55, 0x66, 0x77, 0x88] ++ zeros 49) =
      .ok (.cmdInit .broadcast [0x11, 0x22, 0x33, 0x44, 0x55, 0x66, 0x77, 0x88]) ∧
  decode c .message ([0x01, 0, 0, 0, 0x81, 0x00, 0x03, 1, 2, 3] ++ zeros 54) = .ok (.cmdPing ⟨1, 0, 0, 0⟩ [1, 2, 3]) ∧
  decode c .message ([0x01, 0, 0, 0, 0x90, 0x00, 0x02, 0xAA, 0xBB] ++ zeros 55) = .ok (.cmdOther ⟨1, 0, 0, 0⟩ 0x10 [0xAA, 0xBB]) ∧
  decode c .emitted ([0xFF, 0xFF, 0xFF, 0xFF, 0x86, 0x00, 0x11, 0x11, 0x22, 0x33, 0x44, 0x55, 0x66, 0x77, 0x88,
      0x01, 0x00, 0x00, 0x00, 0x02, 0x00, 0x00, 0x01, 0x00] ++ zeros 40) =
      .ok (.rspInit .broadcast [0x11, 0x22, 0x33, 0x44, 0x55, 0x66, 0x77, 0x88] 1) ∧
  decode c .emitted ([0x12, 0x34, 0x56, 0x78, 0xBF, 0x00, 0x01, 0x04] ++ zeros 56) =
      .ok (.rspError ⟨0x12, 0x34, 0x56, 0x78⟩ .invalidSequence) ∧
  decode c .errorByte ([0x01, 0, 0, 0, 0xBF, 0x00, 0x01, 0x01] ++ zeros 56) = .ok (.errInvalidCmd ⟨1, 0, 0, 0⟩) ∧
  decode c .errorByte ([0x02, 0, 0, 0, 0xBF, 0x00, 0x01, 0x05] ++ zeros 56) = .ok (.errMsgTimeout ⟨2, 0, 0, 0⟩)

/-- R70, R71: the classifier is bit 7 of byte 4 and looks at no other byte; a continuation is what is not initial. -/
def Obligations.ClassifierIsBitSevenOfByteFour : Prop :=
  ∀ p : Packet,
    isInitial p = (byteAt p 4).getLsbD 7 ∧ (isInitial p = true ↔ 0x80 ≤ (byteAt p 4).toNat) ∧
    isContinuation p = !isInitial p ∧ (isContinuation p = true ↔ (byteAt p 4).toNat < 0x80) ∧
    ∀ q : Packet, byteAt q 4 = byteAt p 4 → isInitial q = isInitial p

/-- R53: the packet decoder is total and tells exactly one format; nothing of a packet is lost by it. -/
def Obligations.EveryPacketHasOneFormat : Prop :=
  ∀ (c : Config) (p : Packet), c.wf → p.length = c.reportSize →
    ((byteAt p 4).getLsbD 7 = true →
      decode c .packet p = .ok (.pktInitial (pktCid p) (pktCmd p) (pktBcnt p) (p.drop 7))) ∧
    ((byteAt p 4).getLsbD 7 = false → decode c .packet p = .ok (.pktCont (pktCid p) (pktSeq p) (p.drop 5))) ∧
    ∃ i, decode c .packet p = .ok i ∧ i.wf c = true ∧ encode c i = p

/-- 30_encoding.md: decode and encode agree, for every row of the opcode table, every operand the encoding admits, and every admitted block. -/
def Obligations.DecodeOfEncodeIsTheInstruction : Prop :=
  ∀ (c : Config) (i : Instr), c.wf → i.wf c = true → decode c i.place (encode c i) = .ok i

/-- R92, R93: what `fragment` makes of a message that is not too long for it, byte by byte: each packet carries the channel id, its byte 4, in the
initial packet the whole length, then its slice of the payload, then zeros to `REPORT_SIZE`. (A message has a length of at most 65535, R12.) -/
def Obligations.FragmentPacketsAreTheMessageInOrder : Prop :=
  ∀ (c : Config) (m : Message), c.wf → m.bcnt ≤ c.maxPayload →
    let cidBytes := [m.cid.b0, m.cid.b1, m.cid.b2, m.cid.b3]
    let first := m.payload.take (min m.bcnt c.initPayloadLength)
    let slice := fun k =>
      (m.payload.take (min m.bcnt (c.initPayloadLength + k * c.contPayloadLength + c.contPayloadLength))).drop
        (c.initPayloadLength + k * c.contPayloadLength)
    (fragment c m).length = npkts c m.bcnt ∧
    (fragment c m)[0]? = some (mkInitial c m.cid m.cmd m.bcnt first) ∧
    mkInitial c m.cid m.cmd m.bcnt first =
      cidBytes ++ [BitVec.ofNat 8 (0x80 + m.cmd.toNat), BitVec.ofNat 8 (m.bcnt / 256), BitVec.ofNat 8 (m.bcnt % 256)] ++ first ++
        List.replicate (c.reportSize - 7 - first.length) 0 ∧
    (∀ k < ncont c m.bcnt, k ≤ 127 ∧
      (fragment c m)[1 + k]? = some (mkCont c m.cid k (slice k)) ∧
      mkCont c m.cid k (slice k) =
        cidBytes ++ [BitVec.ofNat 8 k] ++ slice k ++ List.replicate (c.reportSize - 5 - (slice k).length) 0) ∧
    (∀ p ∈ fragment c m, p.length = c.reportSize ∧ pktCid p = m.cid) ∧
    (∀ p, (fragment c m)[0]? = some p → isInitial p = true ∧ pktCmd p = m.cmd ∧ (pktBcnt p).toNat = m.bcnt) ∧
    (∀ k p, (fragment c m)[1 + k]? = some p → isContinuation p = true ∧ (pktSeq p).toNat = k)

/-- 42_fragmenter.md, the round trip: a message fragmented and reassembled from a packet source that holds all of it is the same message. A length
above 65535 is no message (R12). -/
def Obligations.ReassembleUndoesFragment : Prop :=
  ∀ (c : Config) (m : Message), c.wf → m.bcnt ≤ c.maxPayload →
    reassembleList c (fragment c m) = .ok (.complete m (npkts c m.bcnt))

/-- 42_fragmenter.md, the round trip through a queue; 43_reassembler.md, stage 4: packets queued behind the message are not looked at. The spec
marks the queue form as derived. -/
def Obligations.QueuedMessageReassembles : Prop :=
  ∀ (c : Config) (q : Queue) (m : Message) (rest : List Packet), c.wf → q.Inv c → m.bcnt ≤ c.maxPayload →
    contents c.queueLen q = fragment c m ++ rest →
    reassemble c (peekN c.queueLen q) q.len = .ok (.complete m (npkts c m.bcnt))

/-! ## The packet queue -/

/-- R80: `push` appends at the tail slot when there is room, and changes nothing at all when the queue is full. -/
def Obligations.PushAppendsOrDropsSilently : Prop :=
  ∀ (cap : Nat) (q : Queue) (p : Packet), q.head < cap → q.len ≤ cap →
    (q.len < cap →
      (push cap q p).head = q.head ∧ (push cap q p).len = q.len + 1 ∧
      (push cap q p).slot.read ((q.head + q.len) % cap) = some p ∧
      (∀ i, i ≠ (q.head + q.len) % cap → (push cap q p).slot.read i = q.slot.read i) ∧
      contents cap (push cap q p) = contents cap q ++ [p] ∧
      isEmpty (push cap q p) = false ∧ (isFull cap (push cap q p) = true ↔ q.len + 1 = cap)) ∧
    (q.len = cap → push cap q p = q)

/-- R81: `pop` removes the oldest packet and does not touch slot storage; on an empty queue it changes nothing. -/
def Obligations.PopRemovesTheOldest : Prop :=
  ∀ (cap : Nat) (q : Queue), q.head < cap → q.len ≤ cap → (∀ n < q.len, (q.slot.read (slotIndex cap q n)).isSome) →
    (0 < q.len →
      (pop cap q).head = (q.head + 1) % cap ∧ (pop cap q).len = q.len - 1 ∧ (pop cap q).slot = q.slot ∧
      contents cap (pop cap q) = (contents cap q).tail ∧
      isFull cap (pop cap q) = false ∧ (isEmpty (pop cap q) = true ↔ q.len = 1)) ∧
    (q.len = 0 → pop cap q = q)

/-- R82: `pop_n` pops up to `n` packets. -/
def Obligations.PopManyStopsWhenEmpty : Prop :=
  ∀ (cap : Nat) (q : Queue) (n : Nat), q.head < cap → q.len ≤ cap → (∀ j < q.len, (q.slot.read (slotIndex cap q j)).isSome) →
    popN cap n q = ⟨(q.head + min n q.len) % cap, q.len - min n q.len, q.slot⟩ ∧
    contents cap (popN cap n q) = (contents cap q).drop (min n q.len) ∧
    (isEmpty (popN cap n q) = true ↔ q.len ≤ n) ∧ (0 < min n q.len → isFull cap (popN cap n q) = false)

/-- R83, R84: `peek_n` answers the packet at an offset from the head, and absent past the end. -/
def Obligations.PeekLooksUpTheContents : Prop :=
  ∀ (cap : Nat) (q : Queue) (n : Nat), (∀ j < q.len, (q.slot.read (slotIndex cap q j)).isSome) →
    peekN cap q n = .ok (contents cap q)[n]? ∧
    (q.len ≤ n → peekN cap q n = .ok none) ∧
    (n < q.len → ∃ p, peekN cap q n = .ok (some p) ∧ q.slot.read ((q.head + n) % cap) = some p) ∧
    peek cap q = .ok (contents cap q).head?

/-- 41_packet_queue.md, law (f), which the spec marks as derived: pushing more packets than fit into an empty queue keeps the first ones, in order,
and popping as many times as there are slots empties it. -/
def Obligations.OverfilledQueueKeepsTheFirst : Prop :=
  ∀ (cap : Nat) (q : Queue) (ps : List Packet), q.head < cap → q.len = 0 →
    contents cap (pushAll cap q ps) = ps.take cap ∧ (pushAll cap q ps).len = min cap ps.length ∧
    (pushAll cap q ps).head = q.head ∧ (popN cap cap (pushAll cap q ps)).len = 0

/-! ## The reassembler -/

/-- R101, and 43_reassembler.md stage 1b: an empty queue is `Idle`; a head that is not initial is `MessageTimeout`, one packet. -/
def Obligations.EmptyQueueIsIdle : Prop :=
  ∀ (c : Config) (q : Queue), c.wf → q.Inv c →
    (contents c.queueLen q = [] → reassemble c (peekN c.queueLen q) q.len = .ok .idle) ∧
    (∀ p rest, contents c.queueLen q = p :: rest → isContinuation p = true →
      reassemble c (peekN c.queueLen q) q.len = .ok (.error .messageTimeout (pktCid p) 1))

/-- R105: the message needs a continuation that is not in the queue yet. -/
def Obligations.MissingContinuationIsPending : Prop :=
  ∀ (c : Config) (q : Queue) (p0 : Packet) (ps : List Packet), c.wf → q.Inv c →
    contents c.queueLen q = p0 :: ps → isInitial p0 = true → inSequence 0 ps = true →
    ps.length < ncont c (pktBcnt p0).toNat →
    reassemble c (peekN c.queueLen q) q.len = .ok .pending

/-- R107: behind `k` good continuations of a message that needs more stands a continuation with another sequence number, a repeated or a skipped
one: `InvalidSequence`, on that packet's channel, that packet counted. -/
def Obligations.WrongSequenceNumberIsAnError : Prop :=
  ∀ (c : Config) (q : Queue) (p0 bad : Packet) (ps rest : List Packet), c.wf → q.Inv c →
    contents c.queueLen q = p0 :: (ps ++ bad :: rest) → isInitial p0 = true → inSequence 0 ps = true →
    ps.length < ncont c (pktBcnt p0).toNat → isContinuation bad = true → (pktSeq bad).toNat ≠ ps.length →
    reassemble c (peekN c.queueLen q) q.len = .ok (.error .invalidSequence (pktCid bad) (ps.length + 2))

/-- 43_reassembler.md, stage 3b (its count is marked derived in the spec): behind `k` good continuations of a message that needs more stands an
initial packet: `InvalidSequence`, on that packet's channel, that packet counted and lost. -/
def Obligations.InterruptingInitialIsAnError : Prop :=
  ∀ (c : Config) (q : Queue) (p0 bad : Packet) (ps rest : List Packet), c.wf → q.Inv c →
    contents c.queueLen q = p0 :: (ps ++ bad :: rest) → isInitial p0 = true → inSequence 0 ps = true →
    ps.length < ncont c (pktBcnt p0).toNat → isInitial bad = true →
    reassemble c (peekN c.queueLen q) q.len = .ok (.error .invalidSequence (pktCid bad) (ps.length + 2))

/-- R108: all continuations a message needs stand behind its initial packet, in order: the message is complete, as long as declared, and counts its
own packets; what is queued behind them is not looked at. -/
def Obligations.WholeMessageCompletes : Prop :=
  ∀ (c : Config) (q : Queue) (p0 : Packet) (ps rest : List Packet), c.wf → q.Inv c →
    contents c.queueLen q = p0 :: (ps ++ rest) → isInitial p0 = true → inSequence 0 ps = true →
    ps.length = ncont c (pktBcnt p0).toNat →
    (carriedPayload p0 ps).length = (pktBcnt p0).toNat ∧ ps.length + 1 = npkts c (pktBcnt p0).toNat ∧
    reassemble c (peekN c.queueLen q) q.len =
      .ok (.complete ⟨pktCid p0, pktCmd p0, carriedPayload p0 ps⟩ (ps.length + 1))

/-- 43_reassembler.md, the upper bound on a completed message, which the spec marks as derived: what completes is as long as its initial packet
declares, has consumed its own packets only, and is at most `MAX_REASM` long. -/
def Obligations.CompletedMessageIsBounded : Prop :=
  ∀ (c : Config) (q : Queue) (m : Message) (n : Nat), c.wf → q.Inv c →
    reassemble c (peekN c.queueLen q) q.len = .ok (.complete m n) →
    n = npkts c m.bcnt ∧ n ≤ q.len ∧ m.bcnt ≤ c.maxReasm ∧ ncont c m.bcnt ≤ 128 ∧
    ∃ p0 ps rest, contents c.queueLen q = p0 :: (ps ++ rest) ∧ isInitial p0 = true ∧ inSequence 0 ps = true ∧
      m = ⟨pktCid p0, pktCmd p0, carriedPayload p0 ps⟩ ∧ m.bcnt = (pktBcnt p0).toNat

/-- 43_reassembler.md, no channel check (the spec's decision D23): continuation packets that differ only in their channel ids complete the same
message. -/
def Obligations.ContinuationChannelIsNotCompared : Prop :=
  ∀ (c : Config) (p0 : Packet) (ps qs : List Packet) (m : Message) (n : Nat), c.wf →
    (∀ p ∈ p0 :: ps, p.length = c.reportSize) →
    ps.map (List.drop 4) = qs.map (List.drop 4) → (∀ q ∈ qs, q.length = c.reportSize) →
    reassembleList c (p0 :: ps) = .ok (.complete m n) → reassembleList c (p0 :: qs) = .ok (.complete m n)

/-! ## The instructions -/

/-- 45_session_driver.md, the gate (the spec's decision D18, D24; that each instruction checks it is log 14): with a fault or outside `configured`,
no instruction of any row changes anything. -/
def Obligations.ClosedGateStopsEveryInstruction : Prop :=
  ∀ (i : Instr) (s : State), gateOpen s = false → exec i s = .next s

/-- RSP.INIT (30_encoding.md, the INIT response; 42_fragmenter.md, the sink; that the response's command is `CMD_INIT` is the spec's decision D9,
44_dispatcher.md, log 20): the 17-byte response goes into OUTQ, and nothing else changes. -/
def Obligations.RspInitQueuesSeventeenBytes : Prop :=
  ∀ (s : State) (cid : ChannelId) (nonce : List Byte) (newCid : BitVec 32), s.Inv → gateOpen s = true → nonce.length = 8 →
    ∃ t payload, exec (.rspInit cid nonce newCid) s = .next t ∧ t = s.withOutq t.outq ∧
      payload = nonce ++ enc32 s.config.cidByteOrder newCid ++
        [s.config.protocolVersion, s.config.deviceVersion.1, s.config.deviceVersion.2.1, s.config.deviceVersion.2.2,
          s.config.capabilities] ∧
      payload.length = 17 ∧
      QueuedInto s.config.queueLen s.outq t.outq (fragment s.config ⟨cid, s.config.cmdInit, payload⟩)

/-- RSP.PING (30_encoding.md, the PING payload; 42_fragmenter.md, the sink and the size ceiling): the echo goes into OUTQ and nothing else changes; a
payload longer than `MAX_MSG` or than the 65535 bytes of 10_state.md R12 is refused by the name `messageTooLong`, which is the model's reading of the
two (log 15). -/
def Obligations.RspPingQueuesTheEcho : Prop :=
  ∀ (s : State) (cid : ChannelId) (payload : List Byte), s.Inv → gateOpen s = true →
    (payload.length ≤ s.config.maxPayload →
      ∃ t, exec (.rspPing cid payload) s = .next t ∧ t = s.withOutq t.outq ∧
        QueuedInto s.config.queueLen s.outq t.outq (fragment s.config ⟨cid, s.config.cmdPing, payload⟩)) ∧
    (s.config.maxPayload < payload.length → exec (.rspPing cid payload) s = .refused .messageTooLong)

/-- RSP.ERROR (30_encoding.md, the ERROR message; R127): one initial packet with the code of the kind goes into OUTQ, and nothing else changes. -/
def Obligations.RspErrorQueuesOnePacket : Prop :=
  ∀ (s : State) (cid : ChannelId) (kind : ErrorKind), s.Inv → gateOpen s = true →
    ∃ t, exec (.rspError cid kind) s = .next t ∧ t = s.withOutq t.outq ∧
      QueuedInto s.config.queueLen s.outq t.outq [mkInitial s.config cid s.config.cmdError 1 [errorCode s.config kind]]

/-- ERR.INVALID_CMD (60_exceptions.md, what an error records and does): an ERROR packet with `ERR_INVALID_CMD` on the channel, no status event,
nothing else. INQ stays: that the packets the error names are retired before this row runs, by what raises it, is the model's choice (log 11). -/
def Obligations.InvalidCommandIsAnswered : Prop :=
  ∀ (s : State) (cid : ChannelId), s.Inv → gateOpen s = true →
    ∃ t, exec (.errInvalidCmd cid) s = .next t ∧ t = s.withOutq t.outq ∧
      QueuedInto s.config.queueLen s.outq t.outq [mkInitial s.config cid s.config.cmdError 1 [s.config.errInvalidCmd]]

/-- ERR.INVALID_SEQ (60_exceptions.md, what an error records and does): an ERROR packet with `ERR_INVALID_SEQ` on the channel and a status event
`error`, nothing else. INQ and `idle_ticks` stay: that the packets the error names are retired and `idle_ticks` cleared before this row runs, by what
raises it, is the model's choice (log 11). -/
def Obligations.InvalidSequenceIsAnswered : Prop :=
  ∀ (s : State) (cid : ChannelId), s.Inv → gateOpen s = true →
    ∃ t, exec (.errInvalidSeq cid) s = .next t ∧ t = (s.withOutq t.outq).output (.status .error) ∧
      QueuedInto s.config.queueLen s.outq t.outq [mkInitial s.config cid s.config.cmdError 1 [s.config.errInvalidSeq]]

/-- ERR.MSG_TIMEOUT (60_exceptions.md, what an error records and does): an ERROR packet with `ERR_MSG_TIMEOUT` on the channel and a status event
`error`, nothing else. INQ and `idle_ticks` stay: that the packets the error names are retired and `idle_ticks` cleared before this row runs, by what
raises it, is the model's choice (log 11). -/
def Obligations.MessageTimeoutIsAnswered : Prop :=
  ∀ (s : State) (cid : ChannelId), s.Inv → gateOpen s = true →
    ∃ t, exec (.errMsgTimeout cid) s = .next t ∧ t = (s.withOutq t.outq).output (.status .error) ∧
      QueuedInto s.config.queueLen s.outq t.outq [mkInitial s.config cid s.config.cmdError 1 [s.config.errMsgTimeout]]

/-- CMD.INIT that can be served (44_dispatcher.md, INIT and the allocator; that the response's command is `CMD_INIT` is the spec's decision D9): on
any channel, the counter goes one up, the old value is handed out beside the first eight payload bytes, and nothing but the counter and OUTQ
changes. -/
def Obligations.InitAllocatesTheNextChannel : Prop :=
  ∀ (s : State) (cid : ChannelId) (payload : List Byte), s.Inv → gateOpen s = true →
    8 ≤ payload.length → s.chanCounter ≠ 0xFFFFFFFF →
    ∃ t, exec (.cmdInit cid payload) s = .next t ∧
      t = (s.withChanCounter (s.chanCounter + 1)).withOutq t.outq ∧ t.chanCounter.toNat = s.chanCounter.toNat + 1 ∧
      QueuedInto s.config.queueLen s.outq t.outq
        (fragment s.config ⟨cid, s.config.cmdInit, payload.take 8 ++ enc32 s.config.cidByteOrder s.chanCounter ++
          [s.config.protocolVersion, s.config.deviceVersion.1, s.config.deviceVersion.2.1, s.config.deviceVersion.2.2,
            s.config.capabilities]⟩)

/-- CMD.INIT with fewer than eight payload bytes (44_dispatcher.md, the short INIT, the spec's decision D10; 60_exceptions.md, priority): answered
with `InvalidCommand`, the counter neither read nor changed, whatever its value. -/
def Obligations.ShortInitIsRejected : Prop :=
  ∀ (s : State) (cid : ChannelId) (payload : List Byte), s.Inv → gateOpen s = true → payload.length < 8 →
    ∃ t, exec (.cmdInit cid payload) s = .next t ∧ t = s.withOutq t.outq ∧
      QueuedInto s.config.queueLen s.outq t.outq [mkInitial s.config cid s.config.cmdError 1 [s.config.errInvalidCmd]]

/-- CMD.INIT at the exhausted counter (44_dispatcher.md, channel space exhausted, the spec's decision D11): the sticky fault is set, and nothing
else changes. -/
def Obligations.ExhaustedCounterSetsTheFault : Prop :=
  ∀ (s : State) (cid : ChannelId) (payload : List Byte), gateOpen s = true → 8 ≤ payload.length → s.chanCounter = 0xFFFFFFFF →
    exec (.cmdInit cid payload) s = .next (s.withFault (some .channelSpaceExhausted))

/-- CMD.PING (44_dispatcher.md, PING): the request's payload goes back into OUTQ on its channel, and nothing else changes; a payload longer than
`MAX_MSG` or than the 65535 bytes of 10_state.md R12 is refused by the name `messageTooLong`, which is the model's reading of the two (log 15). -/
def Obligations.PingEchoesItsPayload : Prop :=
  ∀ (s : State) (cid : ChannelId) (payload : List Byte), s.Inv → gateOpen s = true →
    (payload.length ≤ s.config.maxPayload →
      ∃ t, exec (.cmdPing cid payload) s = .next t ∧ t = s.withOutq t.outq ∧
        QueuedInto s.config.queueLen s.outq t.outq (fragment s.config ⟨cid, s.config.cmdPing, payload⟩)) ∧
    (s.config.maxPayload < payload.length → exec (.cmdPing cid payload) s = .refused .messageTooLong)

/-- CMD.OTHER (44_dispatcher.md, any other command; 42_fragmenter.md, the sink, where the silent drop at a full OUTQ is the spec's decision D20;
45_session_driver.md, the process step): whatever the command and the payload, an ERROR message with the one byte `ERR_INVALID_CMD` is queued on the
request's channel, and nothing else changes. A message whose command is neither INIT nor PING, CMD_ERROR included, is this instruction. -/
def Obligations.UnknownCommandIsRejected : Prop :=
  ∀ (s : State) (cid : ChannelId) (cmd : BitVec 7) (payload : List Byte), s.Inv → gateOpen s = true →
    (cmd ≠ s.config.cmdInit → cmd ≠ s.config.cmdPing →
      commandOf s.config ⟨cid, cmd, payload⟩ = .cmdOther cid cmd payload) ∧
    commandOf s.config ⟨cid, s.config.cmdError, payload⟩ = .cmdOther cid s.config.cmdError payload ∧
    ∃ t, exec (.cmdOther cid cmd payload) s = .next t ∧ t = s.withOutq t.outq ∧
      QueuedInto s.config.queueLen s.outq t.outq [mkInitial s.config cid s.config.cmdError 1 [s.config.errInvalidCmd]]

/-- PKT.CONT at the head of INQ (45_session_driver.md, the resynchronising scan, the spec's decision D13): the oldest packet of INQ is popped,
`idle_ticks` cleared when there is a budget, and nothing else changes; in particular nothing is emitted. -/
def Obligations.StrayContinuationIsDiscarded : Prop :=
  ∀ (s : State) (cid : ChannelId) (seq : BitVec 7) (data : List Byte), s.Inv → gateOpen s = true →
    ∃ t, exec (.pktCont cid seq data) s = .next t ∧ t = (s.withInq t.inq).withIdleTicks t.idleTicks ∧
      t.inContents = s.inContents.tail ∧ t.inq.slot = s.inq.slot ∧
      t.idleTicks = if s.config.idleTickBudget = none then s.idleTicks else 0

/-- PKT.INITIAL whose whole message stands in INQ (43_reassembler.md, stages 2 to 4; R148): its packets are retired, `idle_ticks` is cleared when
there is a budget, and the message's command runs; always to a next state. -/
def Obligations.WholeMessageIsDispatched : Prop :=
  ∀ (s : State) (p0 : Packet) (ps rest : List Packet), s.Inv → gateOpen s = true →
    s.inContents = p0 :: (ps ++ rest) → isInitial p0 = true → inSequence 0 ps = true →
    ps.length = ncont s.config (pktBcnt p0).toNat →
    ∃ m u t, m = ⟨pktCid p0, pktCmd p0, carriedPayload p0 ps⟩ ∧ m.bcnt = (pktBcnt p0).toNat ∧
      u = (s.withInq u.inq).withIdleTicks (if s.config.idleTickBudget = none then s.idleTicks else 0) ∧
      u.inContents = rest ∧ u.inq.slot = s.inq.slot ∧
      exec (commandOf s.config m) u = .next t ∧
      exec (.pktInitial (pktCid p0) (pktCmd p0) (pktBcnt p0) (pktData p0)) s = .next t

/-- PKT.INITIAL whose message is not all there (R150; 45_session_driver.md, the idle budget, the spec's decision D12): nothing changes, unless a
budget is set and used up; then INQ is emptied, `idle_ticks` cleared, the stalled channel sent `MessageTimeout` and the status event `error`
emitted. -/
def Obligations.PendingMessageWaitsOrIsAbandoned : Prop :=
  ∀ (s : State) (p0 : Packet) (ps : List Packet), s.Inv → gateOpen s = true →
    s.inContents = p0 :: ps → isInitial p0 = true → inSequence 0 ps = true →
    ps.length < ncont s.config (pktBcnt p0).toNat →
    (s.config.idleTickBudget = none →
      exec (.pktInitial (pktCid p0) (pktCmd p0) (pktBcnt p0) (pktData p0)) s = .next s) ∧
    (∀ b, s.config.idleTickBudget = some b → s.idleTicks < b →
      exec (.pktInitial (pktCid p0) (pktCmd p0) (pktBcnt p0) (pktData p0)) s = .next s) ∧
    (∀ b, s.config.idleTickBudget = some b → b ≤ s.idleTicks →
      ∃ t, exec (.pktInitial (pktCid p0) (pktCmd p0) (pktBcnt p0) (pktData p0)) s = .next t ∧
        t = (((s.withInq t.inq).withIdleTicks 0).withOutq t.outq).output (.status .error) ∧
        t.inContents = [] ∧ t.inq.slot = s.inq.slot ∧
        QueuedInto s.config.queueLen s.outq t.outq
          [mkInitial s.config (pktCid p0) s.config.cmdError 1 [s.config.errMsgTimeout]])

/-- PKT.INITIAL whose message is broken (43_reassembler.md, stages 3b and 3c; R149): the packets up to the offending one are retired, the ERROR
message goes to the offending packet's channel, the status event `error` is emitted; the packets behind it stay. -/
def Obligations.BrokenMessageIsAnsweredAndRetired : Prop :=
  ∀ (s : State) (p0 bad : Packet) (ps rest : List Packet), s.Inv → gateOpen s = true →
    s.inContents = p0 :: (ps ++ bad :: rest) → isInitial p0 = true → inSequence 0 ps = true →
    ps.length < ncont s.config (pktBcnt p0).toNat → (isInitial bad = true ∨ (pktSeq bad).toNat ≠ ps.length) →
    ∃ t, exec (.pktInitial (pktCid p0) (pktCmd p0) (pktBcnt p0) (pktData p0)) s = .next t ∧
      t = (((s.withInq t.inq).withIdleTicks t.idleTicks).withOutq t.outq).output (.status .error) ∧
      t.inContents = rest ∧ t.inq.slot = s.inq.slot ∧
      (t.idleTicks = if s.config.idleTickBudget = none then s.idleTicks else 0) ∧
      QueuedInto s.config.queueLen s.outq t.outq
        [mkInitial s.config (pktCid bad) s.config.cmdError 1 [s.config.errInvalidSeq]]

/-- 95_test_vectors.md L1-5, 44_dispatcher.md: two INIT requests, one after the other, get different ids, neither 0 nor the broadcast id, each
beside its own nonce. -/
def Obligations.SuccessiveInitsGetDifferentChannels : Prop :=
  ∀ (s : State) (cid cid' : ChannelId) (payload payload' : List Byte), s.Inv → gateOpen s = true →
    8 ≤ payload.length → 8 ≤ payload'.length → s.chanCounter.toNat + 1 < 0xFFFFFFFF →
    ∃ t u, exec (.cmdInit cid payload) s = .next t ∧ exec (.cmdInit cid' payload') t = .next u ∧
      s.chanCounter ≠ t.chanCounter ∧ s.chanCounter ≠ 0 ∧ s.chanCounter ≠ 0xFFFFFFFF ∧
      t.chanCounter ≠ 0 ∧ t.chanCounter ≠ 0xFFFFFFFF ∧
      u.outContents = (s.outContents ++
        encodePackets s.config (.rspInit cid (payload.take 8) s.chanCounter) ++
        encodePackets s.config (.rspInit cid' (payload'.take 8) t.chanCounter)).take s.config.queueLen

/-! ## The events -/

/-- 45_session_driver.md, events and the process step: when the next event is PROCESS and the gate is open, the packet at the head of INQ is decoded
and the step is that instruction's meaning on the state with the event drawn; after a continuation packet, which the scan discards, the PROCESS step
goes on. An empty INQ is `Idle`. Where the event comes from is the model's choice (log 8). -/
def Obligations.StepRunsTheInstructionAtTheHead : Prop :=
  ∀ s : State, s.Inv → gateOpen s = true → nextEvent s = .process →
    (∀ p rest i, s.inContents = p :: rest → decode s.config .packet p = .ok i →
      (isInitial p = true → step s = exec i (drawEvent s)) ∧
      (isInitial p = false → step s = andThen (exec i (drawEvent s)) (takeEvent .process))) ∧
    (s.inContents = [] → step s = .next (drawEvent s)) ∧
    (∀ e es, s.pending = e :: es → nextEvent s = e ∧ drawEvent s = s.withPending es) ∧
    (s.pending = [] → drawEvent s = s.withFreeIndex (s.freeIndex + 1))

/-- 45_session_driver.md, the process step: PROCESS is the scan, one reassembly attempt, and what its outcome asks for. (The spec marks the trigger
as its decision D14.) -/
def Obligations.ProcessFollowsItsPseudocode : Prop :=
  ∀ s : State, s.Inv → gateOpen s = true →
    ∃ u r, u.inContents = s.inContents.dropWhile isContinuation ∧
      u = (if (s.inContents.takeWhile isContinuation) = [] then s
        else retire (s.inContents.takeWhile isContinuation).length s) ∧
      reassemble u.config (peekN u.config.queueLen u.inq) u.inq.len = .ok r ∧
      takeEvent .process s =
        match r with
        | .idle => .next u
        | .complete m n => exec (commandOf u.config m) (retire n u)
        | .error kind cid n => exec (errorInstr kind cid) (retire n u)
        | .pending =>
          match u.config.idleTickBudget with
          | none => .next u
          | some b =>
            if b ≤ u.idleTicks then exec (.errMsgTimeout (pktCid (u.inContents.headD []))) (retire u.inq.len u)
            else .next u

/-- 60_exceptions.md, unreachability of the head-not-initial error, which the spec marks as derived: the scan leaves INQ empty or with an initial packet
at its head, so that no PROCESS step meets another head and its reassembly never answers `MessageTimeout`; the scan pops what it discards, clears
`idle_ticks` when there is a budget and it popped something, and changes nothing else; a queue of continuation packets only is emptied by PROCESS
without a word. -/
def Obligations.StrayContinuationsVanishSilently : Prop :=
  ∀ s : State, s.Inv → gateOpen s = true →
    ∃ u, resync s.inq.len s = .next u ∧ takeEvent .process s = runHead u ∧
      u.inContents = s.inContents.dropWhile isContinuation ∧ u.inq.slot = s.inq.slot ∧
      u = (s.withInq u.inq).withIdleTicks
        (if s.config.idleTickBudget = none ∨ s.inContents.takeWhile isContinuation = [] then s.idleTicks else 0) ∧
      (∀ p, u.inContents.head? = some p → isInitial p = true) ∧
      (∀ cid n, reassemble u.config (peekN u.config.queueLen u.inq) u.inq.len ≠ .ok (.error .messageTimeout cid n)) ∧
      (s.inContents.all isContinuation = true → u.inContents = [] ∧ takeEvent .process s = .next u)

/-- 45_session_driver.md, the gate (the spec's decisions D18, D24): with a fault every event but RESET changes nothing; without one, outside
`configured`, FRAME and PROCESS change nothing and SetConn is taken. -/
def Obligations.GateSuspendsTheEngine : Prop :=
  ∀ (s : State) (e : Event),
    (s.fault ≠ none → e ≠ .reset → takeEvent e s = .next s) ∧
    (s.connState ≠ .configured → (∀ env, e = .frame env → takeEvent e s = .next s) ∧ (e = .process → takeEvent e s = .next s)) ∧
    (∀ c, s.fault = none → e = .setConn c → ∃ t, takeEvent e s = .next t ∧ t.connState = c)

/-- 45_session_driver.md, FRAME between two ticks (the spec's decision D3): the divider counts, and the transport's answers are ignored. -/
def Obligations.FrameBetweenTicksOnlyCounts : Prop :=
  ∀ (s : State) (env : TransportAnswers), gateOpen s = true → s.tickDiv + 1 ≠ s.config.tickDivider →
    takeEvent (.frame env) s = .next (s.withTickDiv (s.tickDiv + 1))

/-- 45_session_driver.md, the tick and its two shuttles: at most one packet in, at most one packet out, each as the transport's answers and the
queues allow; the calls made of the transport, in order; the idle count; and nothing else. (The retry of a refused packet is the spec's decision
D15, the missing packet D16, the idle count D12.) -/
def Obligations.TickMovesAtMostOnePacketEachWay : Prop :=
  ∀ (s : State) (env : TransportAnswers), s.Inv → gateOpen s = true → eventFits s.config (.frame env) = true →
    s.tickDiv + 1 = s.config.tickDivider →
    ∃ t, takeEvent (.frame env) s = .next t ∧
      t = ((((s.withTickDiv 0).withInq t.inq).withOutq t.outq).withIdleTicks t.idleTicks |>
        fun u => { u with outputs := t.outputs }) ∧
      (let asked := decide (s.inq.len < s.config.queueLen) && env.dataAvailable
       let taken := if asked then env.tryReceive else none
       let offered := if env.readyToSend then s.outContents.head? else none
       t.inContents = s.inContents ++ taken.toList ∧
       t.outContents = (if env.trySend && offered.isSome then s.outContents.tail else s.outContents) ∧
       t.outputs = s.outputs ++ (if asked then [.tryReceive env.tryReceive] else []) ++
         offered.toList.map (fun p => .trySend p env.trySend) ∧
       (s.config.idleTickBudget = none → t.idleTicks = s.idleTicks) ∧
       (∀ b, s.config.idleTickBudget = some b →
         t.idleTicks = if taken.isSome then 0 else if s.inContents = [] then 0 else min (s.idleTicks + 1) b))

/-- 45_session_driver.md, SetConn and the status events (the spec's decisions D18, D19): without a fault any connection state is taken in any state,
its status event is emitted, and no other register changes. -/
def Obligations.SetConnChangesOnlyTheMode : Prop :=
  ∀ (s : State), s.fault = none →
    takeEvent (.setConn .disconnected) s = .next ((s.withConnState .disconnected).output (.status .notReady)) ∧
    takeEvent (.setConn .connected) s = .next ((s.withConnState .connected).output (.status .enumerating)) ∧
    takeEvent (.setConn .configured) s = .next ((s.withConnState .configured).output (.status .ready))

/-- 70_reset_and_hazards.md, RESET (the spec's decision D17; `chan_counter` is the source's): in every state, a fault included, every register takes
its reset value and the invariant holds; the parameters stay. The outside world's fields are the model's own (log 8, log 10). -/
def Obligations.ResetIsTakenInEveryState : Prop :=
  ∀ s : State, s.config.wf →
    ∃ t, takeEvent .reset s = .next t ∧ t.Inv ∧ t.inq.head = 0 ∧ t.inq.len = 0 ∧ t.outq.head = 0 ∧ t.outq.len = 0 ∧
      (∀ i, t.inq.slot.read i = none) ∧ (∀ i, t.outq.slot.read i = none) ∧
      t.chanCounter = 1 ∧ t.tickDiv = 0 ∧ t.connState = .disconnected ∧ t.idleTicks = 0 ∧ t.fault = none ∧
      t.config = s.config ∧ t.pending = s.pending ∧ t.freeIndex = s.freeIndex ∧ t.outputs = s.outputs

/-! ## The whole machine -/

/-- 10_state.md, 00_scope.md: the invariant holds after reset, for every admitted choice of the parameters, the reference one among them. (Reset
values other than the counter's are the spec's decision D17; the parameters of State.reset are log 1 to 5.) -/
def Obligations.ResetStateHasTheInvariant : Prop :=
  (∀ c : Config, c.wf → (State.resetWith c).Inv) ∧ State.reset.Inv ∧ State.reset.chanCounter = 1 ∧
  State.reset.inContents = [] ∧ State.reset.outContents = []

/-- 10_state.md, 41_packet_queue.md law (e): every step keeps the invariant, from every state that has it: the queues' cursors and canonical
storage, the counter never 0, the divider and the idle count in range, the parameters admitted. -/
def Obligations.EveryStepKeepsTheInvariant : Prop :=
  ∀ s t : State, s.Inv → step s = .next t → t.Inv

/-- 42_fragmenter.md ("Inside the engine the precondition always holds"), 10_state.md ("A model must not read an unspecified slot: no operation
does"): from a state with the invariant, a step with packets of the right size neither faults nor is refused. -/
def Obligations.EngineNeverStops : Prop :=
  ∀ s : State, s.Inv → eventFits s.config (nextEvent s) = true → ∃ t, step s = .next t

/-- 10_state.md: "Two queue states with equal `contents` are indistinguishable by any operation" (marked derived in the spec). Two states that
differ only in cursors and in slots outside the contents stay so, step for step. -/
def Obligations.StaleSlotsCannotBeObserved : Prop :=
  ∀ s t : State, s.Inv → t.Inv → Indistinguishable s t →
    (∀ u, step s = .next u → ∃ v, step t = .next v ∧ Indistinguishable u v) ∧
    (∀ r, step s = .refused r → step t = .refused r) ∧ (∀ r, step s ≠ .fault r)

/-- 10_state.md, the channel counter: between resets it never decreases, moves by at most one a step, and moves only in a PROCESS step that serves an
INIT: behind the strays stands an initial packet with `CMD_INIT`, its reassembly is complete, the message has at least eight bytes, and its packets
are retired. -/
def Obligations.ChannelCounterOnlyCountsUp : Prop :=
  ∀ s t : State, s.Inv → nextEvent s ≠ .reset → step s = .next t →
    t.chanCounter = s.chanCounter ∨
    (t.chanCounter.toNat = s.chanCounter.toNat + 1 ∧ nextEvent s = .process ∧
      ∃ p rest m n, s.inContents.dropWhile isContinuation = p :: rest ∧ isInitial p = true ∧ pktCmd p = s.config.cmdInit ∧
        8 ≤ (pktBcnt p).toNat ∧ reassembleList s.config (p :: rest) = .ok (.complete m n) ∧ m.cmd = s.config.cmdInit ∧
        8 ≤ m.bcnt ∧ t.inContents = (p :: rest).drop n)

/-- 60_exceptions.md, the fault: it is set only by a PROCESS step at the exhausted counter that completes an INIT of at least eight bytes, standing
first behind the strays; that step retires the INIT's packets and changes neither OUTQ nor the counter; and the fault is cleared only by RESET. -/
def Obligations.FaultComesFromExhaustionAndStays : Prop :=
  ∀ s t : State, s.Inv → step s = .next t →
    (s.fault = none → t.fault ≠ none →
      nextEvent s = .process ∧ s.chanCounter = 0xFFFFFFFF ∧ t.chanCounter = s.chanCounter ∧ t.outq = s.outq ∧
      t.outputs = s.outputs ∧
      ∃ p rest m n, s.inContents.dropWhile isContinuation = p :: rest ∧ isInitial p = true ∧ pktCmd p = s.config.cmdInit ∧
        8 ≤ (pktBcnt p).toNat ∧ reassembleList s.config (p :: rest) = .ok (.complete m n) ∧ m.cmd = s.config.cmdInit ∧
        8 ≤ m.bcnt ∧ t.inContents = (p :: rest).drop n) ∧
    (s.fault ≠ none → nextEvent s ≠ .reset → t = drawEvent s)

/-- 70_reset_and_hazards.md, boot: "The parameters ... are fixed when the block is built and cannot be changed at run time." -/
def Obligations.ParametersNeverChange : Prop :=
  ∀ s t : State, step s = .next t → t.config = s.config

/-- 44_dispatcher.md, the dispatcher never initiates; 60_exceptions.md, errors: one PROCESS step queues at most one response message, an INIT
response with the counter's value, an echo of at most `MAX_REASM` bytes, or an ERROR message; a `MessageTimeout` only with an idle budget. (The spec
marks these as derived.) -/
def Obligations.ProcessSendsAtMostOneResponse : Prop :=
  ∀ s t : State, s.Inv → takeEvent .process s = .next t →
    ∃ response : List Packet, t.outContents = (s.outContents ++ response).take s.config.queueLen ∧
      (response = [] ∨
        (∃ cid nonce, nonce.length = 8 ∧ response = encodePackets s.config (.rspInit cid nonce s.chanCounter) ∧
          t.chanCounter.toNat = s.chanCounter.toNat + 1) ∨
        (∃ cid payload, payload.length ≤ s.config.maxReasm ∧ response = encodePackets s.config (.rspPing cid payload)) ∨
        (∃ cid kind, response = encodePackets s.config (.rspError cid kind) ∧
          (kind = .messageTimeout → s.config.idleTickBudget ≠ none)))

/-- 20_memory.md, the ordering model (marked derived in the spec): packets leave both queues from the head only and enter at the end only: PROCESS
takes a first part of INQ away and extends OUTQ, a FRAME extends INQ by at most one and takes at most the head of OUTQ. -/
def Obligations.QueuesAreFirstInFirstOut : Prop :=
  ∀ s t : State, s.Inv →
    (takeEvent .process s = .next t →
      t.inContents.IsSuffix s.inContents ∧ s.outContents.IsPrefix t.outContents) ∧
    (∀ env, takeEvent (.frame env) s = .next t →
      s.inContents.IsPrefix t.inContents ∧ t.inContents.length ≤ s.inContents.length + 1 ∧
      t.outContents.IsSuffix s.outContents ∧ s.outContents.length ≤ t.outContents.length + 1)

/-- 70_reset_and_hazards.md, H-OVERSIZE (marked derived in the spec): without an idle budget, an inbound queue full of the first packets of a
message that is longer than the queue stays as it is under every event but RESET, and PROCESS changes nothing. -/
def Obligations.OversizedRequestWedgesTheEngine : Prop :=
  ∀ (s t : State) (p0 : Packet) (ps : List Packet) (e : Event), s.Inv → s.config.idleTickBudget = none →
    s.inContents = p0 :: ps → isInitial p0 = true → inSequence 0 ps = true →
    s.inq.len = s.config.queueLen → s.config.queueLen < npkts s.config (pktBcnt p0).toNat →
    e ≠ .reset → takeEvent e s = .next t → t.inq = s.inq ∧ (e = .process → t = s)

/-- 45_session_driver.md, the process step, with 44_dispatcher.md, PING, end to end: a PING whose packets stand in INQ behind any stray
continuations is retired and echoed packet for packet, when OUTQ has room; nothing else is queued and the counter stays. -/
def Obligations.QueuedPingIsEchoedWhole : Prop :=
  ∀ (s : State) (strays rest : List Packet) (cid : ChannelId) (payload : List Byte), s.Inv → gateOpen s = true →
    payload.length ≤ s.config.maxPayload → strays.all isContinuation = true →
    s.inContents = strays ++ fragment s.config ⟨cid, s.config.cmdPing, payload⟩ ++ rest →
    s.outq.len + npkts s.config payload.length ≤ s.config.queueLen →
    ∃ t, takeEvent .process s = .next t ∧ t.inContents = rest ∧
      t.outContents = s.outContents ++ fragment s.config ⟨cid, s.config.cmdPing, payload⟩ ∧
      t = ((s.withInq t.inq).withOutq t.outq).withIdleTicks (if s.config.idleTickBudget = none then s.idleTicks else 0)

/-- 70_reset_and_hazards.md, when a run is over (the spec's decision D14): with the gate open, as many PROCESS events as there are packets in INQ leave
the engine quiescent, or stopped by the fault; and an engine that had nothing to send and whose OUTQ these events left as it was is then drained. -/
def Obligations.ProcessReachesQuiescence : Prop :=
  ∀ s : State, s.Inv → gateOpen s = true →
    ∃ t, runEvents (List.replicate s.inq.len .process) s = .next t ∧
      (t.fault = some .channelSpaceExhausted ∨ (t.Quiescent ∧ (s.outContents = [] → t.outq = s.outq → t.Drained)))

/-- 45_session_driver.md, the reference schedule, with 95_test_vectors.md P1: in one tick of it, from an empty INQ, a PING of one packet is taken from the
transport, the oldest packet of OUTQ is sent when the transport accepts it, and the echo of the PING is queued. -/
def Obligations.ReferenceTickEchoesAPing : Prop :=
  ∀ (s : State) (cid : ChannelId) (payload : List Byte) (txOk : Bool), s.Inv → gateOpen s = true → s.tickDiv = 0 →
    s.inContents = [] → s.outq.len < s.config.queueLen →
    payload.length ≤ s.config.initPayloadLength → payload.length ≤ 65535 →
    let ping := mkInitial s.config cid s.config.cmdPing payload.length payload
    ∃ t, runEvents (referenceTick s.config (some ping) txOk) s = .next t ∧ t.inContents = [] ∧
      t.outContents = (if txOk then s.outContents.tail else s.outContents) ++ [ping] ∧
      t.tickDiv = 0 ∧ t.chanCounter = s.chanCounter ∧ t.fault = none ∧ t.connState = .configured ∧
      t.outputs = s.outputs ++ [.tryReceive (some ping)] ++
        (if txOk then s.outContents.head?.toList.map (fun p => .trySend p true) else [])

/-! ## The bytes of the built packets -/

/-- R77, R78: the bytes of the packets the engine builds, one by one: the channel id, byte 4, the length or nothing, the data, and zeros up to
`REPORT_SIZE`. -/
def Obligations.BuiltPacketsArePaddedWithZeros : Prop :=
  (∀ (c : Config) (cid : ChannelId) (cmd : BitVec 7) (bcnt : Nat) (d : List Byte), c.wf → bcnt ≤ 65535 →
    d.length ≤ c.initPayloadLength →
    let p := mkInitial c cid cmd bcnt d
    p.length = c.reportSize ∧ isInitial p = true ∧ p.take 4 = [cid.b0, cid.b1, cid.b2, cid.b3] ∧
    (byteAt p 4).toNat = 0x80 + cmd.toNat ∧ (byteAt p 5).toNat = bcnt / 256 ∧ (byteAt p 6).toNat = bcnt % 256 ∧
    (p.drop 7).take d.length = d ∧ ∀ i, 7 + d.length ≤ i → i < c.reportSize → p[i]? = some 0) ∧
  (∀ (c : Config) (cid : ChannelId) (seq : Nat) (d : List Byte), c.wf → seq ≤ 127 → d.length ≤ c.contPayloadLength →
    let p := mkCont c cid seq d
    p.length = c.reportSize ∧ isContinuation p = true ∧ p.take 4 = [cid.b0, cid.b1, cid.b2, cid.b3] ∧
    (byteAt p 4).toNat = seq ∧ (p.drop 5).take d.length = d ∧
    ∀ i, 5 + d.length ≤ i → i < c.reportSize → p[i]? = some 0)
end

