-- ==== Sys2Proof/Laws/Codec.lean ====
section
/-! SUPPORT. The packet codec: sizes of the packets built, their fields read back, and the multi-byte functions undone (R33, R35, R54, R77, R78). -/

namespace Sys2Proof.Machine

@[simp] theorem zeros_length (n : Nat) : (zeros n).length = n := by simp [zeros]

@[simp] theorem ChannelId.bytes_length (cid : ChannelId) : cid.bytes.length = 4 := rfl

theorem Config.wf.reportSize {c : Config} (h : c.wf) : 8 ≤ c.reportSize := h.1

/-- `mk_initial` builds a packet of `REPORT_SIZE` bytes (R50, R77). -/
theorem mkInitial_length {c : Config} (hc : 8 ≤ c.reportSize) (cid : ChannelId) (cmd : BitVec 7) (bcnt : Nat) {d : List Byte}
    (hd : d.length ≤ c.initPayloadLength) : (mkInitial c cid cmd bcnt d).length = c.reportSize := by
  simp only [mkInitial, Config.initPayloadLength] at *
  simp
  omega

/-- `mk_cont` builds a packet of `REPORT_SIZE` bytes (R50, R78). -/
theorem mkCont_length {c : Config} (hc : 8 ≤ c.reportSize) (cid : ChannelId) (seq : Nat) {d : List Byte}
    (hd : d.length ≤ c.contPayloadLength) : (mkCont c cid seq d).length = c.reportSize := by
  simp only [mkCont, Config.contPayloadLength] at *
  simp
  omega

theorem mkInitial_eq (c : Config) (cid : ChannelId) (cmd : BitVec 7) (bcnt : Nat) (d : List Byte) :
    mkInitial c cid cmd bcnt d =
      cid.b0 :: cid.b1 :: cid.b2 :: cid.b3 :: BitVec.ofNat 8 (0x80 + cmd.toNat) :: encBe16Hi bcnt :: encBe16Lo bcnt ::
        (d ++ zeros (c.initPayloadLength - d.length)) := by
  simp [mkInitial, ChannelId.bytes]

theorem mkCont_eq (c : Config) (cid : ChannelId) (seq : Nat) (d : List Byte) :
    mkCont c cid seq d =
      cid.b0 :: cid.b1 :: cid.b2 :: cid.b3 :: BitVec.ofNat 8 seq :: (d ++ zeros (c.contPayloadLength - d.length)) := by
  simp [mkCont, ChannelId.bytes]

/-- "The result always satisfies `is_initial`" (R77). -/
@[simp] theorem isInitial_mkInitial (c : Config) (cid : ChannelId) (cmd : BitVec 7) (bcnt : Nat) (d : List Byte) :
    isInitial (mkInitial c cid cmd bcnt d) = true := by
  have := cmd.isLt
  simp [isInitial, byteAt, mkInitial_eq]
  omega

/-- "The result always satisfies `is_continuation` because `seq <= 127`" (R78). -/
theorem isInitial_mkCont (c : Config) (cid : ChannelId) {seq : Nat} (h : seq < 128) (d : List Byte) :
    isInitial (mkCont c cid seq d) = false := by
  simp [isInitial, byteAt, mkCont_eq]
  omega

@[simp] theorem pktCid_mkInitial (c : Config) (cid : ChannelId) (cmd : BitVec 7) (bcnt : Nat) (d : List Byte) :
    pktCid (mkInitial c cid cmd bcnt d) = cid := by simp [pktCid, byteAt, mkInitial_eq]

@[simp] theorem pktCid_mkCont (c : Config) (cid : ChannelId) (seq : Nat) (d : List Byte) :
    pktCid (mkCont c cid seq d) = cid := by simp [pktCid, byteAt, mkCont_eq]

@[simp] theorem pktCmd_mkInitial (c : Config) (cid : ChannelId) (cmd : BitVec 7) (bcnt : Nat) (d : List Byte) :
    pktCmd (mkInitial c cid cmd bcnt d) = cmd := by
  have := cmd.isLt
  apply BitVec.eq_of_toNat_eq
  simp [pktCmd, byteAt, mkInitial_eq]
  omega

theorem pktSeq_mkCont (c : Config) (cid : ChannelId) {seq : Nat} (h : seq < 128) (d : List Byte) :
    (pktSeq (mkCont c cid seq d)).toNat = seq := by
  simp [pktSeq, byteAt, mkCont_eq]
  omega

/-- `be16` undoes `enc_be16` (R33). -/
theorem be16_enc {v : Nat} (h : v < 65536) : be16 (encBe16Hi v) (encBe16Lo v) = v := by
  simp [be16, encBe16Hi, encBe16Lo]
  omega

theorem pktBcnt_mkInitial (c : Config) (cid : ChannelId) (cmd : BitVec 7) {bcnt : Nat} (h : bcnt < 65536) (d : List Byte) :
    (pktBcnt (mkInitial c cid cmd bcnt d)).toNat = bcnt := by
  have := be16_enc h
  simp [pktBcnt, byteAt, mkInitial_eq, this]
  omega

theorem pktData_mkInitial (c : Config) (cid : ChannelId) (cmd : BitVec 7) (bcnt : Nat) (d : List Byte) :
    pktData (mkInitial c cid cmd bcnt d) = d ++ zeros (c.initPayloadLength - d.length) := by
  rw [pktData, if_pos (isInitial_mkInitial ..), mkInitial_eq]
  rfl

theorem drop_mkCont (c : Config) (cid : ChannelId) (seq : Nat) (d : List Byte) :
    (mkCont c cid seq d).drop 5 = d ++ zeros (c.contPayloadLength - d.length) := by
  rw [mkCont_eq]
  rfl

theorem pktData_mkCont (c : Config) (cid : ChannelId) {seq : Nat} (h : seq < 128) (d : List Byte) :
    pktData (mkCont c cid seq d) = d ++ zeros (c.contPayloadLength - d.length) := by
  rw [pktData, isInitial_mkCont c cid h, if_neg (by simp), drop_mkCont]

/-- The two halves of a 16-bit number, put together again. -/
theorem encBe16_be16 (h l : Byte) : encBe16Hi (be16 h l) = h ∧ encBe16Lo (be16 h l) = l := by
  have := h.isLt
  have := l.isLt
  constructor <;> apply BitVec.eq_of_toNat_eq <;> simp [encBe16Hi, encBe16Lo, be16] <;> omega

theorem be16_lt (h l : Byte) : be16 h l < 65536 := by
  have := h.isLt
  have := l.isLt
  unfold be16
  omega

@[simp] theorem enc32_length (o : ByteOrder) (v : BitVec 32) : (enc32 o v).length = 4 := by cases o <;> rfl

/-- `dec32` undoes `enc32` in either order (R35). -/
theorem dec32_enc32 (o : ByteOrder) (v : BitVec 32) :
    dec32 o ((enc32 o v).getD 0 0) ((enc32 o v).getD 1 0) ((enc32 o v).getD 2 0) ((enc32 o v).getD 3 0) = v := by
  have := v.isLt
  cases o <;> apply BitVec.eq_of_toNat_eq <;> simp [dec32, enc32, u32Byte] <;> omega

theorem initResponsePayload_length (c : Config) {nonce : List Byte} (h : nonce.length = 8) (v : BitVec 32) :
    (initResponsePayload c nonce v).length = 17 := by
  simp [initResponsePayload, h]

/-- `kindOf` undoes `code` (R57), the codes being pairwise distinct (R4). -/
theorem kindOf_errorCode {c : Config} (h : c.wf) (kind : ErrorKind) : kindOf c (errorCode c kind) = some kind := by
  obtain ⟨_, _, _, _, _, _, h1, h2, h3, _⟩ := h
  cases kind <;> simp [kindOf, errorCode, h1.symm, h2.symm, h3.symm]

end Sys2Proof.Machine
end

