-- ==== Sys2Proof/Laws/Fragmenter.lean ====
section
/-! SUPPORT. The fragmenter: how many packets, of what size, carrying what (R55, R90 to R93). -/

namespace Sys2Proof.Machine

theorem contPayloadLength_pos {c : Config} (hc : 8 ≤ c.reportSize) : 0 < c.contPayloadLength := by
  unfold Config.contPayloadLength; omega

theorem initPayloadLength_pos {c : Config} (hc : 8 ≤ c.reportSize) : 0 < c.initPayloadLength := by
  unfold Config.initPayloadLength; omega

/-- Continuation packet `j` is needed exactly when the packets before it do not carry the whole payload (R55). -/
theorem lt_ncont_iff {c : Config} (hc : 8 ≤ c.reportSize) (len j : Nat) :
    j < ncont c len ↔ c.initPayloadLength + j * c.contPayloadLength < len := by
  have hp := contPayloadLength_pos hc
  unfold ncont
  split
  · rename_i h
    constructor
    · intro h'; omega
    · intro h'
      have : 0 ≤ j * c.contPayloadLength := Nat.zero_le _
      omega
  · rename_i h
    unfold ceilDiv
    rw [← Nat.succ_le_iff, Nat.le_div_iff_mul_le hp, Nat.succ_mul]
    omega

/-- A payload that can be fragmented needs at most 128 continuation packets (R91). -/
theorem ncont_le_of_fits {c : Config} (hc : 8 ≤ c.reportSize) {len : Nat} (h : len ≤ c.maxPayload) : ncont c len ≤ 128 := by
  by_contra hcon
  have := (lt_ncont_iff hc len 128).1 (by omega)
  simp only [Config.maxPayload, Config.maxMsg, Config.maxCont] at h
  omega

@[simp] theorem fragment_length (c : Config) (m : Message) : (fragment c m).length = npkts c m.bcnt := by
  simp [fragment, npkts]; omega

theorem contSlice_length_le (c : Config) (payload : List Byte) (k : Nat) :
    (contSlice c payload k).length ≤ c.contPayloadLength := by
  simp [contSlice]

/-- Every fragment is a packet of the block (R50, R77, R78). -/
theorem length_of_mem_fragment {c : Config} (hc : 8 ≤ c.reportSize) {m : Message} {p : Packet} (h : p ∈ fragment c m) :
    p.length = c.reportSize := by
  rcases List.mem_cons.1 h with rfl | h
  · exact mkInitial_length hc _ _ _ (by simp)
  · obtain ⟨k, _, rfl⟩ := List.mem_map.1 h
    exact mkCont_length hc _ _ (contSlice_length_le _ _ _)

/-- The continuation packets of a message, as a list. -/
def fragmentTail (c : Config) (m : Message) : List Packet :=
  (List.range (ncont c m.bcnt)).map fun k => mkCont c m.cid k (contSlice c m.payload k)

theorem fragment_eq (c : Config) (m : Message) : fragment c m = fragmentHead c m :: fragmentTail c m := rfl

@[simp] theorem fragmentTail_length (c : Config) (m : Message) : (fragmentTail c m).length = ncont c m.bcnt := by
  simp [fragmentTail]

/-- The bytes of a packet list, back to back, have a length that the count tells. -/
theorem flatten_length_of_all {n : Nat} {ps : List Packet} (h : ∀ p ∈ ps, p.length = n) :
    ps.flatten.length = ps.length * n := by
  induction ps with
  | nil => simp
  | cons p ps ih =>
    rw [List.flatten_cons, List.length_append, h p List.mem_cons_self,
      ih fun q hq => h q (List.mem_cons_of_mem _ hq), List.length_cons, Nat.succ_mul, Nat.add_comm]

end Sys2Proof.Machine
end

