-- ==== Sys2Proof/Laws/Memory.lean ====
section
/-! SUPPORT. Queue storage: a read after a write, what a write leaves alone, and the canonical form that every write keeps. -/

namespace Sys2Proof.Machine

@[simp] theorem Memory.read_nil (i : Nat) : Memory.read [] i = none := rfl

/-- A read of the slot just written gives the packet written. -/
@[simp] theorem Memory.read_write_same (m : Memory) (i : Nat) (p : Packet) : (m.write i p).read i = some p := by
  induction m with
  | nil => simp [Memory.write, Memory.read]
  | cons e m ih =>
    obtain ⟨j, r⟩ := e
    simp only [Memory.write]
    split
    · simp [Memory.read]
    · split
      · simp [Memory.read]
      · rename_i h
        simp [Memory.read, h, ih]

/-- A write leaves every other slot alone. -/
theorem Memory.read_write_other (m : Memory) {i j : Nat} (p : Packet) (h : i ≠ j) : (m.write j p).read i = m.read i := by
  induction m with
  | nil => simp [Memory.write, Memory.read, h]
  | cons e m ih =>
    obtain ⟨k, r⟩ := e
    simp only [Memory.write]
    split
    · simp [Memory.read, h]
    · split
      · rename_i hk
        subst hk
        simp [Memory.read, h]
      · simp [Memory.read, ih]

/-- The entries after a write: the one written, or one that stood before. -/
theorem Memory.mem_write {m : Memory} {i : Nat} {p : Packet} {e : Nat × Packet} (h : e ∈ m.write i p) :
    e = (i, p) ∨ e ∈ m := by
  induction m with
  | nil => simpa [Memory.write] using h
  | cons a m ih =>
    obtain ⟨k, r⟩ := a
    simp only [Memory.write] at h
    split at h
    · simpa using h
    · split at h
      · rcases List.mem_cons.1 h with h | h
        · exact .inl h
        · exact .inr (List.mem_cons_of_mem _ h)
      · rcases List.mem_cons.1 h with h | h
        · exact .inr (h ▸ List.mem_cons_self)
        · exact (ih h).imp id (List.mem_cons_of_mem _)

/-- A write keeps the canonical form. -/
theorem Memory.wf_write {m : Memory} (h : m.wf) (i : Nat) (p : Packet) : (m.write i p).wf := by
  induction m with
  | nil => simp [Memory.write, Memory.wf]
  | cons a m ih =>
    obtain ⟨k, r⟩ := a
    have hm := List.pairwise_cons.1 h
    simp only [Memory.write]
    split
    · rename_i hik
      refine List.pairwise_cons.2 ⟨?_, h⟩
      intro e he
      rcases List.mem_cons.1 he with rfl | he
      · exact hik
      · exact Nat.lt_trans hik (hm.1 e he)
    · split
      · rename_i hik
        subst hik
        exact List.pairwise_cons.2 ⟨hm.1, hm.2⟩
      · refine List.pairwise_cons.2 ⟨?_, ih hm.2⟩
        intro e he
        rcases Memory.mem_write he with rfl | he
        · show k < i
          omega
        · exact hm.1 e he

/-- What a read gives stands in the storage. -/
theorem Memory.mem_of_read {m : Memory} {i : Nat} {p : Packet} (h : m.read i = some p) : (i, p) ∈ m := by
  induction m with
  | nil => simp at h
  | cons a m ih =>
    obtain ⟨k, r⟩ := a
    simp only [Memory.read] at h
    split at h
    · rename_i hik
      simp_all
    · exact List.mem_cons_of_mem _ (ih h)

end Sys2Proof.Machine
end

