-- ==== Sys2Proof/Laws/Queue.lean ====
section
/-! SUPPORT. The packet queue: what each operation does to the cursors, the slots, the contents and the invariant (R13, R31, R80 to R87). -/

namespace Sys2Proof.Machine

/-- Two offsets of a queue stand in different slots (R31). -/
theorem slotIndex_inj {cap : Nat} {q : Queue} {i j : Nat} (hi : i < cap) (hj : j < cap)
    (h : (q.head + i) % cap = (q.head + j) % cap) : i = j :=
  Nat.ModEq.eq_of_lt_of_lt (Nat.ModEq.add_left_cancel' q.head h) hi hj

@[simp] theorem pop_slot (cap : Nat) (q : Queue) : (pop cap q).slot = q.slot := by
  unfold pop; split <;> rfl

@[simp] theorem pop_len (cap : Nat) (q : Queue) : (pop cap q).len = q.len - 1 := by
  unfold pop; split <;> simp_all

theorem pop_head {cap : Nat} {q : Queue} (h : 0 < q.len) : (pop cap q).head = (q.head + 1) % cap := by
  simp [pop, h]

theorem pop_of_empty {cap : Nat} {q : Queue} (h : q.len = 0) : pop cap q = q := by
  simp [pop, h]

/-- The offsets of a popped queue are the old ones, one further. -/
theorem slotIndex_pop {cap : Nat} {q : Queue} (h : 0 < q.len) (n : Nat) :
    slotIndex cap (pop cap q) n = slotIndex cap q (n + 1) := by
  simp only [slotIndex, pop_head h, Nat.mod_add_mod]
  congr 1; omega

theorem push_of_full {cap : Nat} {q : Queue} (h : cap ≤ q.len) (p : Packet) : push cap q p = q := by
  simp [push, Nat.not_lt.2 h]

theorem push_of_room {cap : Nat} {q : Queue} (h : q.len < cap) (p : Packet) :
    push cap q p = ⟨q.head, q.len + 1, q.slot.write (tailIndex cap q) p⟩ := by
  simp [push, h]

@[simp] theorem push_head (cap : Nat) (q : Queue) (p : Packet) : (push cap q p).head = q.head := by
  unfold push; split <;> rfl

theorem push_len (cap : Nat) (q : Queue) (p : Packet) :
    (push cap q p).len = if q.len < cap then q.len + 1 else q.len := by
  unfold push; split <;> simp_all

@[simp] theorem popN_zero (cap : Nat) (q : Queue) : popN cap 0 q = q := rfl

@[simp] theorem popN_slot (cap n : Nat) (q : Queue) : (popN cap n q).slot = q.slot := by
  induction n generalizing q with
  | zero => rfl
  | succ n ih => simp only [popN]; split <;> simp [*]

@[simp] theorem popN_len (cap n : Nat) (q : Queue) : (popN cap n q).len = q.len - n := by
  induction n generalizing q with
  | zero => rfl
  | succ n ih => simp only [popN]; split <;> simp [*]; omega

theorem popN_of_empty {cap : Nat} {q : Queue} (h : q.len = 0) (n : Nat) : popN cap n q = q := by
  cases n <;> simp [popN, h]

theorem popN_succ (cap n : Nat) (q : Queue) : popN cap (n + 1) q = popN cap n (pop cap q) := by
  by_cases h : q.len = 0
  · simp [popN, h, pop_of_empty h, popN_of_empty h]
  · simp [popN, h]

/-- Popping `a` and then `b` packets is popping `a + b`. -/
theorem popN_add (cap a b : Nat) (q : Queue) : popN cap (a + b) q = popN cap b (popN cap a q) := by
  induction a generalizing q with
  | zero => simp
  | succ a ih => rw [Nat.add_right_comm, popN_succ, ih, popN_succ]

/-- The cursor after `pop_n` (R82). -/
theorem popN_head {cap : Nat} {q : Queue} (hh : q.head < cap) (n : Nat) :
    (popN cap n q).head = (q.head + min n q.len) % cap := by
  induction n generalizing q with
  | zero => simp [Nat.mod_eq_of_lt hh]
  | succ n ih =>
    rw [popN_succ]
    by_cases h : q.len = 0
    · rw [pop_of_empty h, ih hh]; simp [h]
    · have hp : 0 < q.len := by omega
      have : (pop cap q).head < cap := by rw [pop_head hp]; exact Nat.mod_lt _ (by omega)
      rw [ih this, pop_head hp, pop_len, Nat.mod_add_mod]
      congr 1; omega

/-- Every queued offset stands in a slot that has been written. -/
def Queue.Readable (cap : Nat) (q : Queue) : Prop := ∀ n < q.len, (q.slot.read (slotIndex cap q n)).isSome

/-- The contents of a readable queue, looked up by offset. -/
theorem contents_getElem? {cap : Nat} {q : Queue} (h : q.Readable cap) (n : Nat) :
    (contents cap q)[n]? = if n < q.len then q.slot.read (slotIndex cap q n) else none := by
  have key : ∀ l : List Nat, (∀ x ∈ l, x < q.len) →
      l.filterMap (fun n => q.slot.read (slotIndex cap q n)) =
        l.map (fun n => (q.slot.read (slotIndex cap q n)).getD []) := by
    intro l hl
    induction l with
    | nil => rfl
    | cons a l ih =>
      obtain ⟨p, hp⟩ := Option.isSome_iff_exists.1 (h a (hl a List.mem_cons_self))
      simp [hp, ih fun x hx => hl x (List.mem_cons_of_mem _ hx)]
  unfold contents
  rw [key _ fun x hx => List.mem_range.1 hx]
  by_cases hn : n < q.len
  · obtain ⟨p, hp⟩ := Option.isSome_iff_exists.1 (h n hn)
    simp [hn, hp]
  · simp [hn]

/-- `contents(Q)` has `len` packets. -/
theorem contents_length {cap : Nat} {q : Queue} (h : q.Readable cap) : (contents cap q).length = q.len := by
  apply Nat.le_antisymm
  · exact (List.length_filterMap_le _ _).trans (by simp)
  · rcases Nat.eq_zero_or_pos q.len with h0 | h0
    · omega
    · have := contents_getElem? h (q.len - 1)
      rw [if_pos (by omega)] at this
      obtain ⟨p, hp⟩ := Option.isSome_iff_exists.1 (h (q.len - 1) (by omega))
      rw [hp] at this
      have := (List.getElem?_eq_some_iff.1 this).1
      omega

theorem contents_of_empty {cap : Nat} {q : Queue} (h : q.len = 0) : contents cap q = [] := by
  simp [contents, h]

/-- What is looked up in the contents is what a read of its slot gives, readable or not. -/
theorem contents_congr {cap : Nat} {q r : Queue} (hl : q.len = r.len)
    (h : ∀ n < q.len, q.slot.read (slotIndex cap q n) = r.slot.read (slotIndex cap r n)) :
    contents cap q = contents cap r := by
  unfold contents
  rw [← hl]
  exact List.filterMap_congr fun x hx => h x (List.mem_range.1 hx)

/-- A pop takes the first packet off the contents (R87 (c)). -/
theorem contents_pop {cap : Nat} {q : Queue} (h : q.Readable cap) : contents cap (pop cap q) = (contents cap q).tail := by
  rcases Nat.eq_zero_or_pos q.len with h0 | h0
  · simp [pop_of_empty h0, contents_of_empty h0]
  · obtain ⟨p, hp⟩ := Option.isSome_iff_exists.1 (h 0 h0)
    have hr : contents cap q = p :: (List.range (q.len - 1)).filterMap fun n => q.slot.read (slotIndex cap q (n + 1)) := by
      unfold contents
      obtain ⟨m, hm⟩ : ∃ m, q.len = m + 1 := ⟨q.len - 1, by omega⟩
      rw [hm, List.range_succ_eq_map]
      simp [hp, List.filterMap_map]
    rw [hr, List.tail_cons]
    unfold contents
    rw [pop_len, pop_slot]
    exact List.filterMap_congr fun x _ => by rw [slotIndex_pop h0]

theorem Queue.Readable.pop {cap : Nat} {q : Queue} (h : q.Readable cap) : (pop cap q).Readable cap := by
  intro n hn
  rw [pop_len] at hn
  rw [pop_slot, slotIndex_pop (by omega)]
  exact h _ (by omega)

theorem Queue.Readable.popN {cap : Nat} {q : Queue} (h : q.Readable cap) (n : Nat) : (popN cap n q).Readable cap := by
  induction n generalizing q with
  | zero => exact h
  | succ n ih => rw [popN_succ]; exact ih h.pop

/-- `pop_n` takes the first `n` packets off the contents (R87 (d)). -/
theorem contents_popN {cap : Nat} {q : Queue} (h : q.Readable cap) (n : Nat) :
    contents cap (popN cap n q) = (contents cap q).drop n := by
  induction n generalizing q with
  | zero => simp
  | succ n ih => rw [popN_succ, ih h.pop, contents_pop h, List.drop_tail]

/-- A push into a queue with room leaves the queued slots alone. -/
theorem read_push_queued {cap : Nat} {q : Queue} (hr : q.len < cap) (p : Packet) {n : Nat} (hn : n < q.len) :
    (push cap q p).slot.read (slotIndex cap (push cap q p) n) = q.slot.read (slotIndex cap q n) := by
  rw [push_of_room hr]
  apply Memory.read_write_other
  intro h
  have := slotIndex_inj (q := q) (by omega) hr h
  omega

/-- A push appends to the contents when there is room (R87 (b)). -/
theorem contents_push {cap : Nat} {q : Queue} (hr : q.len < cap) (p : Packet) :
    contents cap (push cap q p) = contents cap q ++ [p] := by
  have hl : (push cap q p).len = q.len + 1 := by simp [push_len, hr]
  unfold contents
  rw [hl, List.range_succ, List.filterMap_append]
  congr 1
  · exact List.filterMap_congr fun x hx => read_push_queued hr p (List.mem_range.1 hx)
  · simp [push_of_room hr, slotIndex, tailIndex]

theorem Queue.Readable.push {cap : Nat} {q : Queue} (h : q.Readable cap) (p : Packet) : (push cap q p).Readable cap := by
  by_cases hr : q.len < cap
  · intro n hn
    rw [push_len, if_pos hr] at hn
    rcases Nat.lt_succ_iff_lt_or_eq.1 hn with hn | rfl
    · rw [read_push_queued hr p hn]; exact h n hn
    · simp [push_of_room hr, slotIndex, tailIndex]
  · rw [push_of_full (by omega)]; exact h

@[simp] theorem pushAll_nil (cap : Nat) (q : Queue) : pushAll cap q [] = q := rfl

@[simp] theorem pushAll_cons (cap : Nat) (q : Queue) (p : Packet) (ps : List Packet) :
    pushAll cap q (p :: ps) = pushAll cap (push cap q p) ps := rfl

theorem pushAll_append (cap : Nat) (q : Queue) (ps rs : List Packet) :
    pushAll cap q (ps ++ rs) = pushAll cap (pushAll cap q ps) rs := by
  simp [pushAll, List.foldl_append]

@[simp] theorem pushAll_head (cap : Nat) (q : Queue) (ps : List Packet) : (pushAll cap q ps).head = q.head := by
  induction ps generalizing q with
  | nil => rfl
  | cons p ps ih => simp [ih]

theorem pushAll_of_full {cap : Nat} {q : Queue} (h : cap ≤ q.len) (ps : List Packet) : pushAll cap q ps = q := by
  induction ps with
  | nil => rfl
  | cons p ps ih => simp [push_of_full h, ih]

theorem pushAll_len {cap : Nat} {q : Queue} (h : q.len ≤ cap) (ps : List Packet) :
    (pushAll cap q ps).len = min cap (q.len + ps.length) := by
  induction ps generalizing q with
  | nil => simp [h]
  | cons p ps ih =>
    rw [pushAll_cons]
    by_cases hr : q.len < cap
    · have hl : (push cap q p).len = q.len + 1 := by simp [push_len, hr]
      rw [ih (by omega), hl, List.length_cons]; congr 1; omega
    · rw [push_of_full (by omega), ih h, List.length_cons]; omega

/-- Packets pushed in order grow the contents as far as there is room (R94). -/
theorem contents_pushAll {cap : Nat} {q : Queue} (hrd : q.Readable cap) (h : q.len ≤ cap) (ps : List Packet) :
    contents cap (pushAll cap q ps) = (contents cap q ++ ps).take cap := by
  induction ps generalizing q with
  | nil => rw [pushAll_nil, List.append_nil, List.take_of_length_le]; rw [contents_length hrd]; exact h
  | cons p ps ih =>
    rw [pushAll_cons]
    by_cases hr : q.len < cap
    · rw [ih (hrd.push p) (by rw [push_len, if_pos hr]; omega), contents_push hr, List.append_assoc]
      rfl
    · have hl := contents_length hrd
      rw [push_of_full (by omega), ih hrd h, List.take_append_of_le_length (by omega),
        List.take_append_of_le_length (by omega)]

theorem Queue.Readable.pushAll {cap : Nat} {q : Queue} (h : q.Readable cap) (ps : List Packet) :
    (pushAll cap q ps).Readable cap := by
  induction ps generalizing q with
  | nil => exact h
  | cons p ps ih => exact ih (h.push p)

/-- Slots that no push of the list writes keep what they held. -/
theorem read_pushAll_other {cap : Nat} {q : Queue} (ps : List Packet) {i : Nat}
    (h : ∀ j < ps.length, q.len + j < cap → i ≠ (q.head + (q.len + j)) % cap) :
    (pushAll cap q ps).slot.read i = q.slot.read i := by
  induction ps generalizing q with
  | nil => rfl
  | cons p ps ih =>
    rw [pushAll_cons]
    by_cases hr : q.len < cap
    · rw [ih, push_of_room hr]
      · exact Memory.read_write_other _ _ (by simpa [tailIndex] using h 0 (by simp) (by simpa using hr))
      · intro j hj hlt
        have hl : (push cap q p).len = q.len + 1 := by simp [push_len, hr]
        rw [hl] at hlt ⊢
        rw [push_head, show q.head + (q.len + 1 + j) = q.head + (q.len + (j + 1)) by omega]
        exact h (j + 1) (by simpa using hj) (by omega)
    · rw [push_of_full (by omega), pushAll_of_full (by omega)]

/-- What a push of several packets does, all of it. -/
theorem queuedInto_pushAll {cap : Nat} {q : Queue} (hrd : q.Readable cap) (h : q.len ≤ cap) (ps : List Packet) :
    QueuedInto cap q (pushAll cap q ps) ps :=
  ⟨pushAll_head _ _ _, pushAll_len h ps, contents_pushAll hrd h ps, fun _ hi => read_pushAll_other ps hi⟩

theorem Queue.Inv.readable {c : Config} {q : Queue} (h : q.Inv c) : q.Readable c.queueLen := h.2.2.2.2

theorem Queue.Inv.len_le {c : Config} {q : Queue} (h : q.Inv c) : q.len ≤ c.queueLen := h.2.1

/-- The empty queue has the invariant (R24). -/
theorem Queue.Inv.empty {c : Config} (h : 1 ≤ c.queueLen) : Queue.empty.Inv c := by
  refine ⟨?_, Nat.zero_le _, List.Pairwise.nil, by simp [Queue.empty], by simp [Queue.empty]⟩
  show 0 < c.queueLen
  omega

/-- A push keeps the invariant (R87 (e)). -/
theorem Queue.Inv.push {c : Config} {q : Queue} (h : q.Inv c) {p : Packet} (hp : p.length = c.reportSize) :
    (push c.queueLen q p).Inv c := by
  by_cases hr : q.len < c.queueLen
  · refine ⟨by simpa using h.1, by rw [push_len, if_pos hr]; omega, ?_, ?_, h.readable.push p⟩
    · rw [push_of_room hr]; exact Memory.wf_write h.2.2.1 _ _
    · rw [push_of_room hr]
      intro e he
      rcases Memory.mem_write he with rfl | he
      · exact ⟨Nat.mod_lt _ (by omega), hp⟩
      · exact h.2.2.2.1 e he
  · rw [push_of_full (by omega)]; exact h

/-- A pop keeps the invariant (R87 (e)). -/
theorem Queue.Inv.pop {c : Config} {q : Queue} (h : q.Inv c) : (pop c.queueLen q).Inv c := by
  rcases Nat.eq_zero_or_pos q.len with h0 | h0
  · rw [pop_of_empty h0]; exact h
  · have hc := h.1
    have := h.len_le
    exact ⟨by rw [pop_head h0]; exact Nat.mod_lt _ (by omega), by simp; omega, by simpa using h.2.2.1,
      by simpa using h.2.2.2.1, h.readable.pop⟩

theorem Queue.Inv.popN {c : Config} {q : Queue} (h : q.Inv c) (n : Nat) : (popN c.queueLen n q).Inv c := by
  induction n generalizing q with
  | zero => exact h
  | succ n ih => rw [popN_succ]; exact ih h.pop

theorem Queue.Inv.pushAll {c : Config} {q : Queue} (h : q.Inv c) {ps : List Packet}
    (hp : ∀ p ∈ ps, p.length = c.reportSize) : (pushAll c.queueLen q ps).Inv c := by
  induction ps generalizing q with
  | nil => exact h
  | cons p ps ih =>
    exact ih (h.push (hp p List.mem_cons_self)) fun r hr => hp r (List.mem_cons_of_mem _ hr)

/-- The queued packets are packets of the block. -/
theorem Queue.Inv.length_of_mem {c : Config} {q : Queue} (h : q.Inv c) {p : Packet} (hp : p ∈ contents c.queueLen q) :
    p.length = c.reportSize := by
  obtain ⟨n, _, hn⟩ := List.mem_filterMap.1 hp
  exact (h.2.2.2.1 _ (Memory.mem_of_read hn)).2

/-- Under the invariant a peek is a lookup in the contents, and never a fault (R84, R87 (a)). -/
theorem peekN_eq {cap : Nat} {q : Queue} (h : q.Readable cap) (n : Nat) : peekN cap q n = .ok (contents cap q)[n]? := by
  rw [contents_getElem? h]
  unfold peekN
  by_cases hn : n < q.len
  · obtain ⟨p, hp⟩ := Option.isSome_iff_exists.1 (h n hn)
    simp [hn, hp, Nat.not_le.2 hn]
  · simp [hn, Nat.not_lt.1 hn]

theorem peek_eq {cap : Nat} {q : Queue} (h : q.Readable cap) : peek cap q = .ok (contents cap q).head? := by
  rw [peek, peekN_eq h, List.head?_eq_getElem?]

end Sys2Proof.Machine
end

