-- ==== Sys2Proof/Laws/Reassembler.lean ====
section
/-! SUPPORT. The reassembler on a packet source that is a list, which the contents of a queue are: what one attempt can answer, once (R100 to R111). -/

namespace Sys2Proof.Machine

/-- A packet source that is a list. -/
def listPeek {ε : Type} (ps : List Packet) : Nat → Except ε (Option Packet) := fun n => .ok ps[n]?

/-- Reassembly from a queue is reassembly from its contents (R110, R87 (a)). -/
theorem peekN_eq_listPeek {cap : Nat} {q : Queue} (h : q.Readable cap) : peekN cap q = listPeek (contents cap q) :=
  funext fun n => peekN_eq h n

/-- What is carried so far, continued with one more packet (R104). -/
theorem take_append_take (t : Nat) (x y : List Byte) : (x.take t ++ y).take t = (x ++ y).take t := by
  rcases Nat.le_total t x.length with h | h
  · rw [List.take_append_of_le_length (by simp [h]), List.take_append_of_le_length h]
    simp
  · rw [List.take_of_length_le h]

theorem takeContinuations_done {ε : Type} (c : Config) (peekAt : Nat → Except ε (Option Packet)) (cid : ChannelId)
    (cmd : BitVec 7) {total : Nat} (fuel : Nat) {payload : List Byte} (k : Nat) (h : total ≤ payload.length) :
    takeContinuations c peekAt cid cmd total fuel payload k = .ok (.complete ⟨cid, cmd, payload⟩ (k + 1)) := by
  cases fuel <;> simp [takeContinuations, Nat.not_lt.2 h]

theorem takeContinuations_absent {ε : Type} (c : Config) (ps : List Packet) (cid : ChannelId)
    (cmd : BitVec 7) {total : Nat} (fuel : Nat) {payload : List Byte} {k : Nat} (h : payload.length < total)
    (hk : ps.length ≤ k + 1) :
    takeContinuations (ε := ε) c (listPeek ps) cid cmd total fuel payload k = .ok .pending := by
  cases fuel <;> simp [takeContinuations, h, listPeek, List.getElem?_eq_none hk]

theorem takeContinuations_bad {ε : Type} (c : Config) (ps : List Packet) (cid : ChannelId)
    (cmd : BitVec 7) {total : Nat} (fuel : Nat) {payload : List Byte} {k : Nat} {bad : Packet} (h : payload.length < total)
    (hk : ps[k + 1]? = some bad) (hbad : isInitial bad = true ∨ (pktSeq bad).toNat ≠ k) :
    takeContinuations (ε := ε) c (listPeek ps) cid cmd total (fuel + 1) payload k =
      .ok (.error .invalidSequence (pktCid bad) (k + 2)) := by
  simp only [takeContinuations, h, listPeek, hk, if_true]
  rcases hbad with hbad | hbad <;> simp [hbad]

theorem takeContinuations_good {ε : Type} (c : Config) (ps : List Packet) (cid : ChannelId)
    (cmd : BitVec 7) {total : Nat} (fuel : Nat) {payload : List Byte} {k : Nat} {q : Packet} (h : payload.length < total)
    (hk : ps[k + 1]? = some q) (hq : isInitial q = false) (hs : (pktSeq q).toNat = k) (hl : q.length = c.reportSize) :
    takeContinuations (ε := ε) c (listPeek ps) cid cmd total (fuel + 1) payload k =
      takeContinuations c (listPeek ps) cid cmd total fuel ((payload ++ q.drop 5).take total) (k + 1) := by
  have hd : (q.drop 5).take (min c.contPayloadLength (total - payload.length)) = (q.drop 5).take (total - payload.length) := by
    rw [← List.take_take, List.take_of_length_le (i := c.contPayloadLength)]
    · simp [Config.contPayloadLength, hl]
  simp only [takeContinuations, h, listPeek, hk, if_true, hq, hs, ne_eq, not_true_eq_false, if_false, hd, Bool.false_eq_true]
  rw [List.take_append, List.take_of_length_le (Nat.le_of_lt h)]

/-- The data fields of continuation packets, back to back. -/
def contData (ps : List Packet) : List Byte := (ps.map fun q => q.drop 5).flatten

theorem contData_length {c : Config} {ps : List Packet} (h : ∀ p ∈ ps, p.length = c.reportSize) :
    (contData ps).length = ps.length * c.contPayloadLength := by
  unfold contData
  rw [flatten_length_of_all (n := c.contPayloadLength)]
  · simp
  · intro p hp
    obtain ⟨q, hq, rfl⟩ := List.mem_map.1 hp
    simp [Config.contPayloadLength, h q hq]

theorem inSequence_append (k : Nat) (ps : List Packet) (q : Packet) :
    inSequence k (ps ++ [q]) = (inSequence k ps && (isContinuation q && decide ((pktSeq q).toNat = k + ps.length))) := by
  induction ps generalizing k with
  | nil => simp [inSequence]
  | cons p ps ih =>
    simp only [List.cons_append, inSequence, ih, Bool.and_assoc, List.length_cons]
    congr 4
    rw [Nat.add_right_comm, Nat.add_assoc]

/-- The loop taken through continuations that are in order and all needed (R104). -/
theorem takeContinuations_run {ε : Type} {c : Config} {src : List Packet} (cid : ChannelId) (cmd : BitVec 7) {total : Nat}
    {ps rest : List Packet} {fuel k : Nat} {payload : List Byte}
    (hsrc : src.drop (k + 1) = ps ++ rest) (hseq : inSequence k ps = true) (hl : ∀ p ∈ ps, p.length = c.reportSize)
    (hneed : ∀ j < ps.length, payload.length + j * c.contPayloadLength < total) (hfuel : ps.length ≤ fuel)
    (hpl : payload.length ≤ total) :
    takeContinuations (ε := ε) c (listPeek src) cid cmd total fuel payload k =
      takeContinuations c (listPeek src) cid cmd total (fuel - ps.length) ((payload ++ contData ps).take total) (k + ps.length) := by
  induction ps generalizing fuel k payload with
  | nil => simp [contData, List.take_of_length_le hpl]
  | cons q ps ih =>
    obtain ⟨fuel, rfl⟩ : ∃ f, fuel = f + 1 := ⟨fuel - 1, by simp at hfuel; omega⟩
    simp only [inSequence, Bool.and_eq_true, decide_eq_true_eq, isContinuation, Bool.not_eq_true'] at hseq
    have h0 : payload.length < total := by simpa using hneed 0 (by simp)
    have hk : src[k + 1]? = some q := by
      have := congrArg (·[0]?) hsrc
      simpa using this
    have hql := hl q List.mem_cons_self
    rw [takeContinuations_good c src cid cmd fuel h0 hk hseq.1.1 hseq.1.2 hql]
    have hlen : ((payload ++ q.drop 5).take total).length ≤ payload.length + c.contPayloadLength := by
      simp [Config.contPayloadLength, hql]
    rw [ih]
    · rw [take_append_take, List.append_assoc]
      have : contData (q :: ps) = q.drop 5 ++ contData ps := by simp [contData]
      rw [this, List.length_cons]
      congr 1 <;> omega
    · rw [← List.tail_drop, hsrc]; rfl
    · exact hseq.2
    · exact fun p hp => hl p (List.mem_cons_of_mem _ hp)
    · intro j hj
      have := hneed (j + 1) (by simp; omega)
      rw [Nat.succ_mul] at this
      omega
    · simp at hfuel; omega
    · simp

/-- What the loop can answer, all of it: the continuations in order and needed are a first part of what is left of the source, and behind them the message is
whole, or the source ends, or a packet stands that is no continuation of it. -/
theorem takeContinuations_cases {ε : Type} {c : Config} {src : List Packet} (hl : ∀ p ∈ src, p.length = c.reportSize)
    (cid : ChannelId) (cmd : BitVec 7) {total : Nat} (fuel k : Nat) {payload : List Byte} (hpl : payload.length ≤ total)
    (hfuel : src.length ≤ k + 1 + fuel) :
    ∃ ps rest, src.drop (k + 1) = ps ++ rest ∧ inSequence k ps = true ∧
      (∀ j < ps.length, payload.length + j * c.contPayloadLength < total) ∧
      ((total ≤ payload.length + ps.length * c.contPayloadLength ∧
          takeContinuations (ε := ε) c (listPeek src) cid cmd total fuel payload k =
            .ok (.complete ⟨cid, cmd, (payload ++ contData ps).take total⟩ (k + 1 + ps.length))) ∨
        (rest = [] ∧ payload.length + ps.length * c.contPayloadLength < total ∧
          takeContinuations (ε := ε) c (listPeek src) cid cmd total fuel payload k = .ok .pending) ∨
        (∃ bad rest', rest = bad :: rest' ∧ payload.length + ps.length * c.contPayloadLength < total ∧
          (isInitial bad = true ∨ (pktSeq bad).toNat ≠ k + ps.length) ∧
          takeContinuations (ε := ε) c (listPeek src) cid cmd total fuel payload k =
            .ok (.error .invalidSequence (pktCid bad) (k + ps.length + 2)))) := by
  induction fuel generalizing k payload with
  | zero =>
    refine ⟨[], [], by simpa using hfuel, rfl, by simp, ?_⟩
    by_cases h : payload.length < total
    · exact .inr (.inl ⟨rfl, by simpa using h, takeContinuations_absent c src cid cmd 0 h (by omega)⟩)
    · refine .inl ⟨by simp; omega, ?_⟩
      rw [takeContinuations_done c _ cid cmd 0 k (by omega)]
      simp [contData, List.take_of_length_le hpl]
  | succ fuel ih =>
    by_cases h : payload.length < total
    · rcases hk : src[k + 1]? with _ | q
      · have hk' := List.getElem?_eq_none_iff.1 hk
        exact ⟨[], [], by simpa using hk', rfl, by simp, .inr (.inl ⟨rfl, by simpa using h,
          takeContinuations_absent c src cid cmd _ h hk'⟩)⟩
      · obtain ⟨hlt, hq⟩ := List.getElem?_eq_some_iff.1 hk
        have hdrop : src.drop (k + 1) = q :: src.drop (k + 2) := by rw [List.drop_eq_getElem_cons hlt, hq]
        have hql := hl q (hq ▸ List.getElem_mem hlt)
        by_cases hbad : isInitial q = true ∨ (pktSeq q).toNat ≠ k
        · exact ⟨[], _, hdrop, rfl, by simp, .inr (.inr ⟨q, _, rfl, by simpa using h, by simpa using hbad, by
            simpa using takeContinuations_bad c src cid cmd fuel h hk hbad⟩)⟩
        · simp only [not_or, Bool.not_eq_true, ne_eq, not_not] at hbad
          have hlen : ((payload ++ q.drop 5).take total).length = min total (payload.length + c.contPayloadLength) := by
            simp [Config.contPayloadLength, hql]
          obtain ⟨ps, rest, h1, h2, h3, h4⟩ := ih (k + 1) (payload := (payload ++ q.drop 5).take total) (by simp) (by omega)
          have hgood := takeContinuations_good (ε := ε) c src cid cmd fuel h hk hbad.1 hbad.2 hql
          refine ⟨q :: ps, rest, by rw [hdrop, h1]; rfl, by simp [inSequence, isContinuation, hbad.1, hbad.2, h2], ?_, ?_⟩
          · intro j hj
            rcases j with _ | j
            · simpa using h
            · have := h3 j (by simpa using hj)
              rw [hlen] at this
              rw [Nat.succ_mul]
              omega
          · rw [hgood]
            have hcd : contData (q :: ps) = q.drop 5 ++ contData ps := by simp [contData]
            have e1 : k + 1 + (q :: ps).length = k + 1 + 1 + ps.length := by simp; omega
            have e2 : k + (q :: ps).length = k + 1 + ps.length := by simp; omega
            rw [hcd, e1, e2, ← List.append_assoc, ← take_append_take total (payload ++ q.drop 5)]
            rw [hlen] at h4
            rw [List.length_cons, Nat.succ_mul]
            rcases h4 with ⟨ha, hb⟩ | ⟨ha, hb, hd⟩ | ⟨bad, rest', ha, hb, hd, he⟩
            · refine .inl ⟨by omega, hb⟩
            · refine .inr (.inl ⟨ha, by omega, hd⟩)
            · exact .inr (.inr ⟨bad, rest', ha, by omega, hd, he⟩)
    · refine ⟨[], _, rfl, rfl, by simp, .inl ⟨by simp; omega, ?_⟩⟩
      rw [takeContinuations_done c _ cid cmd _ k (by omega)]
      simp [contData, List.take_of_length_le hpl]

/-- Whether the packets carry less than the message declares, told by their number (R55). -/
theorem carries_lt_iff {c : Config} (hc : 8 ≤ c.reportSize) {data : List Byte} (hd : data.length = c.initPayloadLength) (total j : Nat) :
    (data.take (min total c.initPayloadLength)).length + j * c.contPayloadLength < total ↔ j < ncont c total := by
  rw [lt_ncont_iff hc, List.length_take, hd]
  have : 0 ≤ j * c.contPayloadLength := Nat.zero_le _
  omega

/-- What reassembly from an initial packet on can answer, all of it (R103 to R108): with `src` the packets from that packet on. -/
theorem reassembleFrom_cases {ε : Type} {c : Config} (hc : 8 ≤ c.reportSize) {src : List Packet}
    (hl : ∀ p ∈ src, p.length = c.reportSize) (cid : ChannelId) (cmd : BitVec 7) (bcnt : BitVec 16) {data : List Byte}
    (hd : data.length = c.initPayloadLength) :
    ∃ ps rest, src.drop 1 = ps ++ rest ∧ inSequence 0 ps = true ∧ ps.length ≤ ncont c bcnt.toNat ∧
      ((ps.length = ncont c bcnt.toNat ∧
          reassembleFrom (ε := ε) c (listPeek src) src.length cid cmd bcnt data =
            .ok (.complete ⟨cid, cmd, (data ++ contData ps).take bcnt.toNat⟩ (npkts c bcnt.toNat))) ∨
        (rest = [] ∧ ps.length < ncont c bcnt.toNat ∧
          reassembleFrom (ε := ε) c (listPeek src) src.length cid cmd bcnt data = .ok .pending) ∨
        (∃ bad rest', rest = bad :: rest' ∧ ps.length < ncont c bcnt.toNat ∧
          (isInitial bad = true ∨ (pktSeq bad).toNat ≠ ps.length) ∧
          reassembleFrom (ε := ε) c (listPeek src) src.length cid cmd bcnt data =
            .ok (.error .invalidSequence (pktCid bad) (ps.length + 2)))) := by
  obtain ⟨ps, rest, h1, h2, h3, h4⟩ := takeContinuations_cases (ε := ε) hl cid cmd (total := bcnt.toNat) src.length 0
    (payload := data.take (min bcnt.toNat c.initPayloadLength)) (by simp) (by omega)
  have h3' : ps.length ≤ ncont c bcnt.toNat := by
    rcases Nat.eq_zero_or_pos ps.length with h0 | h0
    · omega
    · have := (carries_lt_iff hc hd _ _).1 (h3 (ps.length - 1) (by omega))
      omega
  have hdata : ((data.take (min bcnt.toNat c.initPayloadLength)) ++ contData ps).take bcnt.toNat =
      (data ++ contData ps).take bcnt.toNat := by
    rw [← List.take_take, List.take_of_length_le (i := c.initPayloadLength) (by omega), take_append_take]
  refine ⟨ps, rest, h1, h2, h3', ?_⟩
  simp only [reassembleFrom]
  rcases h4 with ⟨ha, hb⟩ | ⟨ha, hb, hr⟩ | ⟨bad, rest', ha, hb, hbad, hr⟩
  · have hn : ps.length = ncont c bcnt.toNat := by
      by_contra hcon
      have := (carries_lt_iff hc hd bcnt.toNat ps.length).2 (by omega)
      omega
    exact .inl ⟨hn, by rw [hb, hdata, npkts, ← hn]⟩
  · exact .inr (.inl ⟨ha, (carries_lt_iff hc hd _ _).1 hb, hr⟩)
  · exact .inr (.inr ⟨bad, rest', ha, (carries_lt_iff hc hd _ _).1 hb, by simpa using hbad, by simpa using hr⟩)

/-- Where a message's first continuations can end: two ways to cut the same packets, both in order, agree as far as the shorter one goes. -/
theorem inSequence_getElem {k : Nat} {ps : List Packet} (h : inSequence k ps = true) {j : Nat} (hj : j < ps.length) :
    isInitial ps[j] = false ∧ (pktSeq ps[j]).toNat = k + j := by
  induction ps generalizing k j with
  | nil => simp at hj
  | cons q ps ih =>
    simp only [inSequence, Bool.and_eq_true, decide_eq_true_eq, isContinuation, Bool.not_eq_true'] at h
    rcases j with _ | j
    · simpa using h.1
    · have := ih h.2 (j := j) (by simpa using hj)
      simp only [List.getElem_cons_succ]
      exact ⟨this.1, by omega⟩

/-- Every continuation packet in order has a number below 128, since seven bits hold no more (R111). -/
theorem inSequence_length_le {ps : List Packet} (h : inSequence 0 ps = true) : ps.length ≤ 128 := by
  by_contra hcon
  have := (inSequence_getElem h (j := 128) (by omega)).2
  have := (pktSeq (ps[128]'(by omega))).isLt
  omega

end Sys2Proof.Machine
end

