-- ==== Sys2Proof/Laws/Decode.lean ====
section
/-! SUPPORT. The bytes of a list of packets cut into packets again, and what the fragments of a message carry (R55, R92, R93). -/

namespace Sys2Proof

open Sys2Proof.Machine

/-- Packets of one size, back to back, are cut into the same packets. -/
theorem cutPackets_flatten {size : Nat} (hs : 0 < size) {ps : List Packet} (h : ∀ p ∈ ps, p.length = size) {fuel : Nat}
    (hf : ps.length ≤ fuel) : cutPackets size fuel ps.flatten = ps := by
  induction ps generalizing fuel with
  | nil => cases fuel <;> rfl
  | cons p ps ih =>
    obtain ⟨fuel, rfl⟩ : ∃ f, fuel = f + 1 := ⟨fuel - 1, by simp at hf; omega⟩
    have hp := h p List.mem_cons_self
    have hne : p ≠ [] := by intro h0; simp [h0] at hp; omega
    have htake : (p ++ ps.flatten).take size = p := by rw [List.take_append_of_le_length (by omega), List.take_of_length_le (by omega)]
    have hdrop : (p ++ ps.flatten).drop size = ps.flatten := by rw [← hp]; simp
    rw [List.flatten_cons, cutPackets, htake, hdrop, ih (fun q hq => h q (List.mem_cons_of_mem _ hq)) (by simp at hf; omega)]
    simp [hne]

/-- A message's packets are told by the bytes of all of them. -/
theorem decodeMessage_flatten {c : Config} (hc : 8 ≤ c.reportSize) {ps : List Packet} (h : ∀ p ∈ ps, p.length = c.reportSize) :
    decodeMessage c ps.flatten = messageOf c ps := by
  have hfl := flatten_length_of_all h
  have hle : ps.length ≤ ps.flatten.length := by rw [hfl]; exact Nat.le_mul_of_pos_right _ (by omega)
  simp only [decodeMessage, cutPackets_flatten (by omega : 0 < c.reportSize) h hle]
  simp [List.all_eq_true]
  intro x hx hne
  exact absurd (h x hx) hne

end Sys2Proof

namespace Sys2Proof.Machine

/-- Slices of one size, each filled up with zeros, back to back: cut at the length of what was sliced, they are its first part. -/
theorem padded_slices (n : Nat) {size : Nat} (d : List Byte) :
    (((List.range n).map fun k =>
        (d.drop (k * size)).take size ++ zeros (size - ((d.drop (k * size)).take size).length)).flatten).take d.length =
      d.take (n * size) := by
  induction n generalizing d with
  | zero => simp
  | succ n ih =>
    rw [List.range_succ_eq_map, List.map_cons, List.flatten_cons, List.map_map]
    have hmap : ((fun k => (d.drop (k * size)).take size ++ zeros (size - ((d.drop (k * size)).take size).length)) ∘ Nat.succ) =
        fun k => ((d.drop size).drop (k * size)).take size ++
          zeros (size - (((d.drop size).drop (k * size)).take size).length) := by
      funext k
      simp only [Function.comp, List.drop_drop, Nat.succ_mul, Nat.add_comm]
    rw [hmap]
    rcases Nat.le_total size d.length with h | h
    · have hl : ((d.drop (0 * size)).take size).length = size := by simp [h]
      have hz : size - size = 0 := by omega
      rw [hl, hz]
      have e0 : (d.drop (0 * size)).take size ++ zeros 0 = d.take size := by simp [zeros]
      rw [e0, List.take_append, List.take_of_length_le (by simp)]
      have hlen : d.length - (d.take size).length = (d.drop size).length := by simp; omega
      rw [hlen, ih, Nat.succ_mul, Nat.add_comm (n * size), List.take_add]
    · have e0 : (d.drop (0 * size)).take size = d := by simp [List.take_of_length_le h]
      rw [e0, List.append_assoc, List.take_append_of_le_length (Nat.le_refl _), List.take_length,
        List.take_of_length_le]
      rw [Nat.succ_mul]; omega

/-- The data fields of a message's continuation packets carry what the initial packet left over. -/
theorem contData_fragmentTail (c : Config) (m : Message) :
    (contData (fragmentTail c m)).take (m.payload.drop c.initPayloadLength).length =
      (m.payload.drop c.initPayloadLength).take (ncont c m.bcnt * c.contPayloadLength) := by
  rw [← padded_slices]
  congr 2
  simp only [contData, fragmentTail, List.map_map]
  congr 1
  apply List.map_congr_left
  intro k _
  simp only [Function.comp, drop_mkCont, contSlice, List.drop_drop]

/-- The fragments of a message carry its payload (R55). -/
theorem carried_fragment {c : Config} (hc : 8 ≤ c.reportSize) (m : Message) :
    (pktData (fragmentHead c m) ++ contData (fragmentTail c m)).take m.bcnt = m.payload := by
  rw [fragmentHead, pktData_mkInitial]
  rcases Nat.le_total m.bcnt c.initPayloadLength with h | h
  · have h' : m.payload.length ≤ c.initPayloadLength := h
    rw [List.take_of_length_le h', List.append_assoc, Message.bcnt, List.take_append_of_le_length (Nat.le_refl _), List.take_length]
  · have h' : c.initPayloadLength ≤ m.payload.length := h
    have hz : c.initPayloadLength - (m.payload.take c.initPayloadLength).length = 0 := by simp; omega
    rw [hz, show zeros 0 = [] from rfl, List.append_nil, Message.bcnt, List.take_append, List.take_of_length_le (by simp),
      show m.payload.length - (m.payload.take c.initPayloadLength).length = (m.payload.drop c.initPayloadLength).length by simp; omega,
      contData_fragmentTail, List.take_of_length_le (l := m.payload.drop _), List.take_append_drop]
    have := lt_ncont_iff hc m.bcnt (ncont c m.bcnt)
    simp only [lt_self_iff_false, false_iff, Nat.not_lt] at this
    simp only [List.length_drop]
    rw [Message.bcnt] at this ⊢
    omega

/-- The continuation packets of a message that can be fragmented are in order (R93). -/
theorem inSequence_fragmentTail {c : Config} (hc : 8 ≤ c.reportSize) {m : Message} (hm : m.bcnt ≤ c.maxPayload) :
    inSequence 0 (fragmentTail c m) = true := by
  have hn := ncont_le_of_fits hc hm
  have key : ∀ n k, k + n ≤ 128 →
      inSequence k ((List.range n).map fun j => mkCont c m.cid (k + j) (contSlice c m.payload (k + j))) = true := by
    intro n
    induction n with
    | zero => intro k _; rfl
    | succ n ih =>
      intro k hk
      rw [List.range_succ_eq_map, List.map_cons, List.map_map]
      have := ih (k + 1) (by omega)
      simp only [inSequence, isContinuation, Nat.add_zero, isInitial_mkCont c m.cid (show k < 128 by omega),
        pktSeq_mkCont c m.cid (show k < 128 by omega)]
      rw [← this]
      simp [Function.comp_def, Nat.add_right_comm, Nat.add_assoc]
  simpa [fragmentTail] using key (ncont c m.bcnt) 0 (by omega)

end Sys2Proof.Machine
end

