-- ==== Sys2Proof/Laws/State.lean ====
section
/-! SUPPORT. One lemma for each field under each update of the state, so that no proof unfolds a record update. -/

namespace Sys2Proof.Machine

@[simp] theorem State.withInq_config (s : State) (q : Queue) : (s.withInq q).config = s.config := rfl
@[simp] theorem State.withInq_inq (s : State) (q : Queue) : (s.withInq q).inq = q := rfl
@[simp] theorem State.withInq_outq (s : State) (q : Queue) : (s.withInq q).outq = s.outq := rfl
@[simp] theorem State.withInq_chanCounter (s : State) (q : Queue) : (s.withInq q).chanCounter = s.chanCounter := rfl
@[simp] theorem State.withInq_tickDiv (s : State) (q : Queue) : (s.withInq q).tickDiv = s.tickDiv := rfl
@[simp] theorem State.withInq_connState (s : State) (q : Queue) : (s.withInq q).connState = s.connState := rfl
@[simp] theorem State.withInq_idleTicks (s : State) (q : Queue) : (s.withInq q).idleTicks = s.idleTicks := rfl
@[simp] theorem State.withInq_fault (s : State) (q : Queue) : (s.withInq q).fault = s.fault := rfl
@[simp] theorem State.withInq_pending (s : State) (q : Queue) : (s.withInq q).pending = s.pending := rfl
@[simp] theorem State.withInq_freeIndex (s : State) (q : Queue) : (s.withInq q).freeIndex = s.freeIndex := rfl
@[simp] theorem State.withInq_outputs (s : State) (q : Queue) : (s.withInq q).outputs = s.outputs := rfl

@[simp] theorem State.withOutq_config (s : State) (q : Queue) : (s.withOutq q).config = s.config := rfl
@[simp] theorem State.withOutq_inq (s : State) (q : Queue) : (s.withOutq q).inq = s.inq := rfl
@[simp] theorem State.withOutq_outq (s : State) (q : Queue) : (s.withOutq q).outq = q := rfl
@[simp] theorem State.withOutq_chanCounter (s : State) (q : Queue) : (s.withOutq q).chanCounter = s.chanCounter := rfl
@[simp] theorem State.withOutq_tickDiv (s : State) (q : Queue) : (s.withOutq q).tickDiv = s.tickDiv := rfl
@[simp] theorem State.withOutq_connState (s : State) (q : Queue) : (s.withOutq q).connState = s.connState := rfl
@[simp] theorem State.withOutq_idleTicks (s : State) (q : Queue) : (s.withOutq q).idleTicks = s.idleTicks := rfl
@[simp] theorem State.withOutq_fault (s : State) (q : Queue) : (s.withOutq q).fault = s.fault := rfl
@[simp] theorem State.withOutq_pending (s : State) (q : Queue) : (s.withOutq q).pending = s.pending := rfl
@[simp] theorem State.withOutq_freeIndex (s : State) (q : Queue) : (s.withOutq q).freeIndex = s.freeIndex := rfl
@[simp] theorem State.withOutq_outputs (s : State) (q : Queue) : (s.withOutq q).outputs = s.outputs := rfl

@[simp] theorem State.withChanCounter_config (s : State) (v : BitVec 32) : (s.withChanCounter v).config = s.config := rfl
@[simp] theorem State.withChanCounter_inq (s : State) (v : BitVec 32) : (s.withChanCounter v).inq = s.inq := rfl
@[simp] theorem State.withChanCounter_outq (s : State) (v : BitVec 32) : (s.withChanCounter v).outq = s.outq := rfl
@[simp] theorem State.withChanCounter_chanCounter (s : State) (v : BitVec 32) : (s.withChanCounter v).chanCounter = v := rfl
@[simp] theorem State.withChanCounter_tickDiv (s : State) (v : BitVec 32) : (s.withChanCounter v).tickDiv = s.tickDiv := rfl
@[simp] theorem State.withChanCounter_connState (s : State) (v : BitVec 32) : (s.withChanCounter v).connState = s.connState := rfl
@[simp] theorem State.withChanCounter_idleTicks (s : State) (v : BitVec 32) : (s.withChanCounter v).idleTicks = s.idleTicks := rfl
@[simp] theorem State.withChanCounter_fault (s : State) (v : BitVec 32) : (s.withChanCounter v).fault = s.fault := rfl
@[simp] theorem State.withChanCounter_pending (s : State) (v : BitVec 32) : (s.withChanCounter v).pending = s.pending := rfl
@[simp] theorem State.withChanCounter_freeIndex (s : State) (v : BitVec 32) : (s.withChanCounter v).freeIndex = s.freeIndex := rfl
@[simp] theorem State.withChanCounter_outputs (s : State) (v : BitVec 32) : (s.withChanCounter v).outputs = s.outputs := rfl

@[simp] theorem State.withTickDiv_config (s : State) (n : Nat) : (s.withTickDiv n).config = s.config := rfl
@[simp] theorem State.withTickDiv_inq (s : State) (n : Nat) : (s.withTickDiv n).inq = s.inq := rfl
@[simp] theorem State.withTickDiv_outq (s : State) (n : Nat) : (s.withTickDiv n).outq = s.outq := rfl
@[simp] theorem State.withTickDiv_chanCounter (s : State) (n : Nat) : (s.withTickDiv n).chanCounter = s.chanCounter := rfl
@[simp] theorem State.withTickDiv_tickDiv (s : State) (n : Nat) : (s.withTickDiv n).tickDiv = n := rfl
@[simp] theorem State.withTickDiv_connState (s : State) (n : Nat) : (s.withTickDiv n).connState = s.connState := rfl
@[simp] theorem State.withTickDiv_idleTicks (s : State) (n : Nat) : (s.withTickDiv n).idleTicks = s.idleTicks := rfl
@[simp] theorem State.withTickDiv_fault (s : State) (n : Nat) : (s.withTickDiv n).fault = s.fault := rfl
@[simp] theorem State.withTickDiv_pending (s : State) (n : Nat) : (s.withTickDiv n).pending = s.pending := rfl
@[simp] theorem State.withTickDiv_freeIndex (s : State) (n : Nat) : (s.withTickDiv n).freeIndex = s.freeIndex := rfl
@[simp] theorem State.withTickDiv_outputs (s : State) (n : Nat) : (s.withTickDiv n).outputs = s.outputs := rfl

@[simp] theorem State.withConnState_config (s : State) (c : ConnState) : (s.withConnState c).config = s.config := rfl
@[simp] theorem State.withConnState_inq (s : State) (c : ConnState) : (s.withConnState c).inq = s.inq := rfl
@[simp] theorem State.withConnState_outq (s : State) (c : ConnState) : (s.withConnState c).outq = s.outq := rfl
@[simp] theorem State.withConnState_chanCounter (s : State) (c : ConnState) : (s.withConnState c).chanCounter = s.chanCounter := rfl
@[simp] theorem State.withConnState_tickDiv (s : State) (c : ConnState) : (s.withConnState c).tickDiv = s.tickDiv := rfl
@[simp] theorem State.withConnState_connState (s : State) (c : ConnState) : (s.withConnState c).connState = c := rfl
@[simp] theorem State.withConnState_idleTicks (s : State) (c : ConnState) : (s.withConnState c).idleTicks = s.idleTicks := rfl
@[simp] theorem State.withConnState_fault (s : State) (c : ConnState) : (s.withConnState c).fault = s.fault := rfl
@[simp] theorem State.withConnState_pending (s : State) (c : ConnState) : (s.withConnState c).pending = s.pending := rfl
@[simp] theorem State.withConnState_freeIndex (s : State) (c : ConnState) : (s.withConnState c).freeIndex = s.freeIndex := rfl
@[simp] theorem State.withConnState_outputs (s : State) (c : ConnState) : (s.withConnState c).outputs = s.outputs := rfl

@[simp] theorem State.withIdleTicks_config (s : State) (n : Nat) : (s.withIdleTicks n).config = s.config := rfl
@[simp] theorem State.withIdleTicks_inq (s : State) (n : Nat) : (s.withIdleTicks n).inq = s.inq := rfl
@[simp] theorem State.withIdleTicks_outq (s : State) (n : Nat) : (s.withIdleTicks n).outq = s.outq := rfl
@[simp] theorem State.withIdleTicks_chanCounter (s : State) (n : Nat) : (s.withIdleTicks n).chanCounter = s.chanCounter := rfl
@[simp] theorem State.withIdleTicks_tickDiv (s : State) (n : Nat) : (s.withIdleTicks n).tickDiv = s.tickDiv := rfl
@[simp] theorem State.withIdleTicks_connState (s : State) (n : Nat) : (s.withIdleTicks n).connState = s.connState := rfl
@[simp] theorem State.withIdleTicks_idleTicks (s : State) (n : Nat) : (s.withIdleTicks n).idleTicks = n := rfl
@[simp] theorem State.withIdleTicks_fault (s : State) (n : Nat) : (s.withIdleTicks n).fault = s.fault := rfl
@[simp] theorem State.withIdleTicks_pending (s : State) (n : Nat) : (s.withIdleTicks n).pending = s.pending := rfl
@[simp] theorem State.withIdleTicks_freeIndex (s : State) (n : Nat) : (s.withIdleTicks n).freeIndex = s.freeIndex := rfl
@[simp] theorem State.withIdleTicks_outputs (s : State) (n : Nat) : (s.withIdleTicks n).outputs = s.outputs := rfl

@[simp] theorem State.withFault_config (s : State) (f : Option FaultReason) : (s.withFault f).config = s.config := rfl
@[simp] theorem State.withFault_inq (s : State) (f : Option FaultReason) : (s.withFault f).inq = s.inq := rfl
@[simp] theorem State.withFault_outq (s : State) (f : Option FaultReason) : (s.withFault f).outq = s.outq := rfl
@[simp] theorem State.withFault_chanCounter (s : State) (f : Option FaultReason) : (s.withFault f).chanCounter = s.chanCounter := rfl
@[simp] theorem State.withFault_tickDiv (s : State) (f : Option FaultReason) : (s.withFault f).tickDiv = s.tickDiv := rfl
@[simp] theorem State.withFault_connState (s : State) (f : Option FaultReason) : (s.withFault f).connState = s.connState := rfl
@[simp] theorem State.withFault_idleTicks (s : State) (f : Option FaultReason) : (s.withFault f).idleTicks = s.idleTicks := rfl
@[simp] theorem State.withFault_fault (s : State) (f : Option FaultReason) : (s.withFault f).fault = f := rfl
@[simp] theorem State.withFault_pending (s : State) (f : Option FaultReason) : (s.withFault f).pending = s.pending := rfl
@[simp] theorem State.withFault_freeIndex (s : State) (f : Option FaultReason) : (s.withFault f).freeIndex = s.freeIndex := rfl
@[simp] theorem State.withFault_outputs (s : State) (f : Option FaultReason) : (s.withFault f).outputs = s.outputs := rfl

@[simp] theorem State.withPending_config (s : State) (es : List Event) : (s.withPending es).config = s.config := rfl
@[simp] theorem State.withPending_inq (s : State) (es : List Event) : (s.withPending es).inq = s.inq := rfl
@[simp] theorem State.withPending_outq (s : State) (es : List Event) : (s.withPending es).outq = s.outq := rfl
@[simp] theorem State.withPending_chanCounter (s : State) (es : List Event) : (s.withPending es).chanCounter = s.chanCounter := rfl
@[simp] theorem State.withPending_tickDiv (s : State) (es : List Event) : (s.withPending es).tickDiv = s.tickDiv := rfl
@[simp] theorem State.withPending_connState (s : State) (es : List Event) : (s.withPending es).connState = s.connState := rfl
@[simp] theorem State.withPending_idleTicks (s : State) (es : List Event) : (s.withPending es).idleTicks = s.idleTicks := rfl
@[simp] theorem State.withPending_fault (s : State) (es : List Event) : (s.withPending es).fault = s.fault := rfl
@[simp] theorem State.withPending_pending (s : State) (es : List Event) : (s.withPending es).pending = es := rfl
@[simp] theorem State.withPending_freeIndex (s : State) (es : List Event) : (s.withPending es).freeIndex = s.freeIndex := rfl
@[simp] theorem State.withPending_outputs (s : State) (es : List Event) : (s.withPending es).outputs = s.outputs := rfl

@[simp] theorem State.withFreeIndex_config (s : State) (n : Nat) : (s.withFreeIndex n).config = s.config := rfl
@[simp] theorem State.withFreeIndex_inq (s : State) (n : Nat) : (s.withFreeIndex n).inq = s.inq := rfl
@[simp] theorem State.withFreeIndex_outq (s : State) (n : Nat) : (s.withFreeIndex n).outq = s.outq := rfl
@[simp] theorem State.withFreeIndex_chanCounter (s : State) (n : Nat) : (s.withFreeIndex n).chanCounter = s.chanCounter := rfl
@[simp] theorem State.withFreeIndex_tickDiv (s : State) (n : Nat) : (s.withFreeIndex n).tickDiv = s.tickDiv := rfl
@[simp] theorem State.withFreeIndex_connState (s : State) (n : Nat) : (s.withFreeIndex n).connState = s.connState := rfl
@[simp] theorem State.withFreeIndex_idleTicks (s : State) (n : Nat) : (s.withFreeIndex n).idleTicks = s.idleTicks := rfl
@[simp] theorem State.withFreeIndex_fault (s : State) (n : Nat) : (s.withFreeIndex n).fault = s.fault := rfl
@[simp] theorem State.withFreeIndex_pending (s : State) (n : Nat) : (s.withFreeIndex n).pending = s.pending := rfl
@[simp] theorem State.withFreeIndex_freeIndex (s : State) (n : Nat) : (s.withFreeIndex n).freeIndex = n := rfl
@[simp] theorem State.withFreeIndex_outputs (s : State) (n : Nat) : (s.withFreeIndex n).outputs = s.outputs := rfl

@[simp] theorem State.output_config (s : State) (o : Output) : (s.output o).config = s.config := rfl
@[simp] theorem State.output_inq (s : State) (o : Output) : (s.output o).inq = s.inq := rfl
@[simp] theorem State.output_outq (s : State) (o : Output) : (s.output o).outq = s.outq := rfl
@[simp] theorem State.output_chanCounter (s : State) (o : Output) : (s.output o).chanCounter = s.chanCounter := rfl
@[simp] theorem State.output_tickDiv (s : State) (o : Output) : (s.output o).tickDiv = s.tickDiv := rfl
@[simp] theorem State.output_connState (s : State) (o : Output) : (s.output o).connState = s.connState := rfl
@[simp] theorem State.output_idleTicks (s : State) (o : Output) : (s.output o).idleTicks = s.idleTicks := rfl
@[simp] theorem State.output_fault (s : State) (o : Output) : (s.output o).fault = s.fault := rfl
@[simp] theorem State.output_pending (s : State) (o : Output) : (s.output o).pending = s.pending := rfl
@[simp] theorem State.output_freeIndex (s : State) (o : Output) : (s.output o).freeIndex = s.freeIndex := rfl
@[simp] theorem State.output_outputs (s : State) (o : Output) : (s.output o).outputs = s.outputs ++ [o] := rfl

@[simp] theorem State.resetWith_config (c : Config) : (State.resetWith c).config = c := rfl
@[simp] theorem State.resetWith_inq (c : Config) : (State.resetWith c).inq = Queue.empty := rfl
@[simp] theorem State.resetWith_outq (c : Config) : (State.resetWith c).outq = Queue.empty := rfl
@[simp] theorem State.resetWith_chanCounter (c : Config) : (State.resetWith c).chanCounter = 1 := rfl
@[simp] theorem State.resetWith_tickDiv (c : Config) : (State.resetWith c).tickDiv = 0 := rfl
@[simp] theorem State.resetWith_connState (c : Config) : (State.resetWith c).connState = .disconnected := rfl
@[simp] theorem State.resetWith_idleTicks (c : Config) : (State.resetWith c).idleTicks = 0 := rfl
@[simp] theorem State.resetWith_fault (c : Config) : (State.resetWith c).fault = none := rfl
@[simp] theorem State.resetWith_pending (c : Config) : (State.resetWith c).pending = [] := rfl
@[simp] theorem State.resetWith_freeIndex (c : Config) : (State.resetWith c).freeIndex = 0 := rfl
@[simp] theorem State.resetWith_outputs (c : Config) : (State.resetWith c).outputs = [] := rfl

end Sys2Proof.Machine
end

