-- ==== Sys2Proof/Laws/Ops.lean ====
section
/-! SUPPORT. The shared operations on the state: what each leaves alone, and what each can answer (R94, R123, R124, R147 to R149, R163). -/

namespace Sys2Proof.Machine

@[simp] theorem andThen_next (s : State) (k : State → Outcome) : andThen (.next s) k = k s := rfl
@[simp] theorem andThen_fault (r : Fault) (k : State → Outcome) : andThen (.fault r) k = .fault r := rfl
@[simp] theorem andThen_refused (r : Refusal) (k : State → Outcome) : andThen (.refused r) k = .refused r := rfl

/-- A sequence answers a next state exactly when both parts do. -/
theorem andThen_eq_next {o : Outcome} {k : State → Outcome} {u : State} :
    andThen o k = .next u ↔ ∃ t, o = .next t ∧ k t = .next u := by
  cases o <;> simp

theorem whenOpen_of_open {s : State} (h : gateOpen s = true) (o : Outcome) : whenOpen s o = o := by simp [whenOpen, h]

theorem whenOpen_of_closed {s : State} (h : gateOpen s = false) (o : Outcome) : whenOpen s o = .next s := by simp [whenOpen, h]

/-- The gate depends on the fault register and the connection state alone (R141). -/
theorem gateOpen_congr {s t : State} (hf : s.fault = t.fault) (hc : s.connState = t.connState) : gateOpen s = gateOpen t := by
  simp [gateOpen, hf, hc]

theorem gateOpen_iff {s : State} : gateOpen s = true ↔ s.fault = none ∧ s.connState = .configured := by simp [gateOpen]

/-- `idle_ticks` after a pop from INQ (R147, R148, R149). -/
def idleCleared (s : State) : Nat := if s.config.idleTickBudget = none then s.idleTicks else 0

/-- Clearing the idle counter, as one update. -/
theorem clearIdle_eq (s : State) : clearIdle s = s.withIdleTicks (idleCleared s) := by
  unfold clearIdle idleCleared; split <;> rfl

/-- Retirement, as two updates. -/
theorem retire_eq (n : Nat) (s : State) :
    retire n s = (s.withInq (popN s.config.queueLen n s.inq)).withIdleTicks (idleCleared s) := by
  rw [retire, clearIdle_eq]; rfl

/-- One turn of the scan is the retirement of one packet. -/
theorem discardHead_eq_retire (s : State) : discardHead s = retire 1 s := by
  rw [discardHead, retire, popN_succ, popN_zero]

@[simp] theorem retire_config (n : Nat) (s : State) : (retire n s).config = s.config := by simp [retire_eq]
@[simp] theorem retire_inq (n : Nat) (s : State) : (retire n s).inq = popN s.config.queueLen n s.inq := by simp [retire_eq]
@[simp] theorem retire_outq (n : Nat) (s : State) : (retire n s).outq = s.outq := by simp [retire_eq]
@[simp] theorem retire_chanCounter (n : Nat) (s : State) : (retire n s).chanCounter = s.chanCounter := by simp [retire_eq]
@[simp] theorem retire_tickDiv (n : Nat) (s : State) : (retire n s).tickDiv = s.tickDiv := by simp [retire_eq]
@[simp] theorem retire_connState (n : Nat) (s : State) : (retire n s).connState = s.connState := by simp [retire_eq]
@[simp] theorem retire_idleTicks (n : Nat) (s : State) : (retire n s).idleTicks = idleCleared s := by simp [retire_eq]
@[simp] theorem retire_fault (n : Nat) (s : State) : (retire n s).fault = s.fault := by simp [retire_eq]
@[simp] theorem retire_pending (n : Nat) (s : State) : (retire n s).pending = s.pending := by simp [retire_eq]
@[simp] theorem retire_freeIndex (n : Nat) (s : State) : (retire n s).freeIndex = s.freeIndex := by simp [retire_eq]
@[simp] theorem retire_outputs (n : Nat) (s : State) : (retire n s).outputs = s.outputs := by simp [retire_eq]
@[simp] theorem gateOpen_retire (n : Nat) (s : State) : gateOpen (retire n s) = gateOpen s := gateOpen_congr (by simp) (by simp)

/-- What emission can answer, all of it (R91, R94). -/
theorem emit_eq (m : Message) (s : State) :
    (m.bcnt ≤ s.config.maxPayload ∧
      emit m s = .next (s.withOutq (pushAll s.config.queueLen s.outq (fragment s.config m)))) ∨
    (s.config.maxPayload < m.bcnt ∧ emit m s = .refused .messageTooLong) := by
  unfold emit
  split
  · exact .inl ⟨‹_›, rfl⟩
  · exact .inr ⟨by omega, rfl⟩

theorem emit_of_fits {m : Message} {s : State} (h : m.bcnt ≤ s.config.maxPayload) :
    emit m s = .next (s.withOutq (pushAll s.config.queueLen s.outq (fragment s.config m))) := by simp [emit, h]

/-- Every admitted block can emit a message of 17 bytes, the longest that is not an echo (R91). -/
theorem seventeen_le_maxPayload {c : Config} (hc : 8 ≤ c.reportSize) : 17 ≤ c.maxPayload := by
  simp only [Config.maxPayload, Config.maxMsg, Config.maxCont, Config.initPayloadLength, Config.contPayloadLength]
  omega

@[simp] theorem bcnt_errorMsg (c : Config) (cid : ChannelId) (kind : ErrorKind) : (errorMsg c cid kind).bcnt = 1 := rfl

/-- An ERROR message can always be emitted (R60). -/
theorem emit_errorMsg {s : State} (hc : 8 ≤ s.config.reportSize) (cid : ChannelId) (kind : ErrorKind) :
    emit (errorMsg s.config cid kind) s =
      .next (s.withOutq (pushAll s.config.queueLen s.outq (fragment s.config (errorMsg s.config cid kind)))) :=
  emit_of_fits (by have := seventeen_le_maxPayload hc; simp; omega)

/-- The status events of an error (R149, R163 (3)). -/
def errorStatuses : ErrorKind → List Output
  | .invalidCommand => []
  | .invalidSequence => [.status .error]
  | .messageTimeout => [.status .error]

@[simp] theorem errorStatus_outputs (kind : ErrorKind) (s : State) :
    (errorStatus kind s).outputs = s.outputs ++ errorStatuses kind := by
  cases kind <;> simp [errorStatus, statusEvent, errorStatuses]

@[simp] theorem errorStatus_inq (kind : ErrorKind) (s : State) : (errorStatus kind s).inq = s.inq := by cases kind <;> rfl
@[simp] theorem errorStatus_outq (kind : ErrorKind) (s : State) : (errorStatus kind s).outq = s.outq := by cases kind <;> rfl
@[simp] theorem errorStatus_config (kind : ErrorKind) (s : State) : (errorStatus kind s).config = s.config := by cases kind <;> rfl
@[simp] theorem errorStatus_chanCounter (kind : ErrorKind) (s : State) : (errorStatus kind s).chanCounter = s.chanCounter := by
  cases kind <;> rfl
@[simp] theorem errorStatus_tickDiv (kind : ErrorKind) (s : State) : (errorStatus kind s).tickDiv = s.tickDiv := by cases kind <;> rfl
@[simp] theorem errorStatus_connState (kind : ErrorKind) (s : State) : (errorStatus kind s).connState = s.connState := by
  cases kind <;> rfl
@[simp] theorem errorStatus_idleTicks (kind : ErrorKind) (s : State) : (errorStatus kind s).idleTicks = s.idleTicks := by
  cases kind <;> rfl
@[simp] theorem errorStatus_fault (kind : ErrorKind) (s : State) : (errorStatus kind s).fault = s.fault := by cases kind <;> rfl
@[simp] theorem errorStatus_pending (kind : ErrorKind) (s : State) : (errorStatus kind s).pending = s.pending := by cases kind <;> rfl
@[simp] theorem errorStatus_freeIndex (kind : ErrorKind) (s : State) : (errorStatus kind s).freeIndex = s.freeIndex := by
  cases kind <;> rfl

/-- Taking a protocol error on an admitted block: one ERROR message into OUTQ, the status events of its kind, nothing else (R163). -/
theorem takeError_eq {s : State} (hc : 8 ≤ s.config.reportSize) (kind : ErrorKind) (cid : ChannelId) :
    takeError kind cid s = .next (errorStatus kind
      (s.withOutq (pushAll s.config.queueLen s.outq (fragment s.config (errorMsg s.config cid kind))))) := by
  rw [takeError, emit_errorMsg hc, andThen_next]

/-- The meanings of the ERR rows are one operation (R160, R163). -/
theorem raiseError_eq (kind : ErrorKind) (cid : ChannelId) (s : State) :
    raiseError kind cid s = whenOpen s (takeError kind cid s) := by cases kind <;> rfl

/-- What the allocator can answer, all of it (R123, R124). -/
theorem allocChannel_cases (s : State) :
    (s.chanCounter = 0xFFFFFFFF ∧ allocChannel s = none) ∨
    (s.chanCounter ≠ 0xFFFFFFFF ∧ allocChannel s = some (s.chanCounter, s.withChanCounter (s.chanCounter + 1))) := by
  unfold allocChannel
  split
  · exact .inl ⟨‹_›, rfl⟩
  · exact .inr ⟨‹_›, rfl⟩

end Sys2Proof.Machine
end

