-- ==== Sys2Proof/Laws/Exec.lean ====
section
/-! SUPPORT. What an instruction can do, once: it retires packets or not, and then replies or not. Every invariant of the instructions follows from this. -/

namespace Sys2Proof.Machine

/-- What the counter and the fault register can become in a reply: they stay, the counter goes one up, or the fault is set at the exhausted counter, and then
nothing is sent (R123, R124). -/
inductive CounterMove (s : State) : BitVec 32 → Option FaultReason → List Packet → List Output → Prop where
  | stays (ps : List Packet) (outs : List Output) : CounterMove s s.chanCounter s.fault ps outs
  | up (ps : List Packet) (outs : List Output) (h : s.chanCounter ≠ 0xFFFFFFFF) :
      CounterMove s (s.chanCounter + 1) s.fault ps outs
  | exhausted (h : s.chanCounter = 0xFFFFFFFF) : CounterMove s s.chanCounter (some .channelSpaceExhausted) [] []

/-- `t` is `s` after a reply: packets of the block pushed into OUTQ, status events emitted, the counter and the fault register moved. -/
def Reply (s t : State) : Prop :=
  ∃ ps outs v f, (∀ p ∈ ps, p.length = s.config.reportSize) ∧ CounterMove s v f ps outs ∧
    t = { s with
      outq := pushAll s.config.queueLen s.outq ps, outputs := s.outputs ++ outs, chanCounter := v, fault := f }

theorem Reply.refl (s : State) : Reply s s := ⟨[], [], s.chanCounter, s.fault, by simp, .stays .., by simp⟩

theorem reply_of_emit {m : Message} {s t : State} (hc : 8 ≤ s.config.reportSize) (h : emit m s = .next t) : Reply s t := by
  rcases emit_eq m s with ⟨_, h'⟩ | ⟨_, h'⟩
  · rw [h'] at h
    obtain rfl := Host.Outcome.next.inj h
    exact ⟨fragment s.config m, [], s.chanCounter, s.fault, fun p hp => length_of_mem_fragment hc hp, .stays .., by simp [State.withOutq]⟩
  · rw [h'] at h; cases h

theorem reply_of_takeError {kind : ErrorKind} {cid : ChannelId} {s t : State} (hc : 8 ≤ s.config.reportSize)
    (h : takeError kind cid s = .next t) : Reply s t := by
  rw [takeError_eq hc] at h
  obtain rfl := Host.Outcome.next.inj h
  refine ⟨fragment s.config (errorMsg s.config cid kind), errorStatuses kind, s.chanCounter, s.fault, fun p hp => length_of_mem_fragment hc hp, .stays .., ?_⟩
  cases kind <;> simp [errorStatus, statusEvent, errorStatuses, State.withOutq, State.output]

/-- A gated operation that answers a next state was closed, or answered it itself. -/
theorem whenOpen_next {s t : State} {o : Outcome} (h : whenOpen s o = .next t) :
    (gateOpen s = false ∧ t = s) ∨ (gateOpen s = true ∧ o = .next t) := by
  rcases hg : gateOpen s with _ | _
  · rw [whenOpen_of_closed hg] at h
    exact .inl ⟨rfl, (Host.Outcome.next.inj h).symm⟩
  · rw [whenOpen_of_open hg] at h
    exact .inr ⟨rfl, h⟩

theorem reply_of_whenOpen {s t : State} {o : Outcome} (ho : o = .next t → Reply s t) (h : whenOpen s o = .next t) : Reply s t := by
  rcases whenOpen_next h with ⟨_, rfl⟩ | ⟨_, h⟩
  · exact Reply.refl _
  · exact ho h

theorem reply_of_raiseError {kind : ErrorKind} {cid : ChannelId} {s t : State} (hc : 8 ≤ s.config.reportSize)
    (h : raiseError kind cid s = .next t) : Reply s t := by
  rw [raiseError_eq] at h
  exact reply_of_whenOpen (reply_of_takeError hc) h

/-- CMD.INIT as one equation: what it does behind the gate (R121 to R124). -/
theorem execCmdInit_cases {cid : ChannelId} {payload : List Byte} {s t : State} (h : execCmdInit cid payload s = .next t) :
    (gateOpen s = false ∧ t = s) ∨ (payload.length < 8 ∧ takeError .invalidCommand cid s = .next t) ∨
    (8 ≤ payload.length ∧ s.chanCounter = 0xFFFFFFFF ∧ t = s.withFault (some .channelSpaceExhausted)) ∨
    (8 ≤ payload.length ∧ s.chanCounter ≠ 0xFFFFFFFF ∧
      emit (initResponse s.config cid (payload.take 8) s.chanCounter) (s.withChanCounter (s.chanCounter + 1)) = .next t) := by
  rcases whenOpen_next h with h | ⟨hg, h⟩
  · exact .inl h
  · by_cases h8 : payload.length < 8
    · simp only [isShortInit, h8, decide_true, if_true, execErrInvalidCmd, whenOpen_of_open hg] at h
      exact .inr (.inl ⟨h8, h⟩)
    · simp only [isShortInit, h8, decide_false, Bool.false_eq_true, if_false] at h
      rcases allocChannel_cases s with ⟨hx, ha⟩ | ⟨hx, ha⟩
      · rw [ha] at h
        exact .inr (.inr (.inl ⟨by omega, hx, (Host.Outcome.next.inj h).symm⟩))
      · rw [ha] at h
        have hg' : gateOpen (s.withChanCounter (s.chanCounter + 1)) = true := hg
        simp only [execRspInit, whenOpen_of_open hg'] at h
        exact .inr (.inr (.inr ⟨by omega, hx, h⟩))

theorem reply_of_execCmdInit {cid : ChannelId} {payload : List Byte} {s t : State} (hc : 8 ≤ s.config.reportSize)
    (h : execCmdInit cid payload s = .next t) : Reply s t := by
  rcases execCmdInit_cases h with ⟨_, rfl⟩ | ⟨_, h⟩ | ⟨_, hx, rfl⟩ | ⟨_, hx, h⟩
  · exact Reply.refl _
  · exact reply_of_takeError hc h
  · exact ⟨[], [], s.chanCounter, _, by simp, .exhausted hx, by simp [State.withFault]⟩
  · rcases emit_eq (initResponse s.config cid (payload.take 8) s.chanCounter) (s.withChanCounter (s.chanCounter + 1)) with
      ⟨_, h'⟩ | ⟨_, h'⟩
    · rw [h'] at h
      obtain rfl := Host.Outcome.next.inj h
      exact ⟨fragment s.config (initResponse s.config cid (payload.take 8) s.chanCounter), [], _, _,
        fun p hp => length_of_mem_fragment hc hp, .up _ _ hx, by simp [State.withOutq, State.withChanCounter]⟩
    · rw [h'] at h; cases h

theorem reply_of_dispatch {m : Message} {s t : State} (hc : 8 ≤ s.config.reportSize) (h : dispatch m s = .next t) : Reply s t := by
  unfold dispatch at h
  split at h
  · exact reply_of_execCmdInit hc h
  · split at h
    · exact reply_of_whenOpen (reply_of_whenOpen (reply_of_emit hc)) h
    · exact reply_of_whenOpen (reply_of_whenOpen (reply_of_takeError hc)) h

/-- Every instruction retires some packets of INQ or none, and then replies or not. -/
theorem exec_cases {i : Instr} {s t : State} (hc : 8 ≤ s.config.reportSize) (h : exec i s = .next t) :
    ∃ u, (u = s ∨ ∃ n, u = retire n s) ∧ Reply u t := by
  have hr : ∀ n, 8 ≤ (retire n s).config.reportSize := by simpa using hc
  cases i with
  | pktInitial cid cmd bcnt data =>
    rcases whenOpen_next h with ⟨_, rfl⟩ | ⟨_, h⟩
    · exact ⟨_, .inl rfl, Reply.refl _⟩
    · split at h
      · cases h
      · rename_i r _
        cases r with
        | idle =>
          obtain rfl := Host.Outcome.next.inj h
          exact ⟨_, .inl rfl, Reply.refl _⟩
        | pending =>
          simp only [handleOutcome, stillPending] at h
          split at h
          · obtain rfl := Host.Outcome.next.inj h
            exact ⟨_, .inl rfl, Reply.refl _⟩
          · split at h
            · exact ⟨_, .inr ⟨_, rfl⟩, reply_of_raiseError (kind := .messageTimeout) (hr _) h⟩
            · obtain rfl := Host.Outcome.next.inj h
              exact ⟨_, .inl rfl, Reply.refl _⟩
        | complete m n => exact ⟨_, .inr ⟨n, rfl⟩, reply_of_dispatch (hr _) h⟩
        | error kind bad n => exact ⟨_, .inr ⟨n, rfl⟩, reply_of_raiseError (hr _) h⟩
  | pktCont cid seq data =>
    rcases whenOpen_next h with ⟨_, rfl⟩ | ⟨_, h⟩
    · exact ⟨_, .inl rfl, Reply.refl _⟩
    · obtain rfl := Host.Outcome.next.inj h
      exact ⟨_, .inr ⟨1, discardHead_eq_retire s⟩, Reply.refl _⟩
  | cmdInit cid payload => exact ⟨_, .inl rfl, reply_of_execCmdInit hc h⟩
  | cmdPing cid payload => exact ⟨_, .inl rfl, reply_of_whenOpen (reply_of_whenOpen (reply_of_emit hc)) h⟩
  | cmdOther cid cmd payload => exact ⟨_, .inl rfl, reply_of_whenOpen (reply_of_whenOpen (reply_of_takeError hc)) h⟩
  | rspInit cid nonce newCid => exact ⟨_, .inl rfl, reply_of_whenOpen (reply_of_emit hc) h⟩
  | rspPing cid payload => exact ⟨_, .inl rfl, reply_of_whenOpen (reply_of_emit hc) h⟩
  | rspError cid kind => exact ⟨_, .inl rfl, reply_of_whenOpen (reply_of_emit hc) h⟩
  | errInvalidCmd cid => exact ⟨_, .inl rfl, reply_of_whenOpen (reply_of_takeError hc) h⟩
  | errInvalidSeq cid => exact ⟨_, .inl rfl, reply_of_whenOpen (reply_of_takeError hc) h⟩
  | errMsgTimeout cid => exact ⟨_, .inl rfl, reply_of_whenOpen (reply_of_takeError hc) h⟩

end Sys2Proof.Machine
end

