-- ==== Sys2Proof/Laws/PerInstr.lean ====
section
/-! SUPPORT. What holds of every instruction as syntax, one lemma for each constructor: its encoding is a whole number of packets, at least one and at most 129 (30_encoding.md R50, R55, R91). -/

namespace Sys2Proof.Laws

open Sys2Proof Sys2Proof.Machine

/-- The encoding of a well-formed instruction is between 1 and 129 packets of `REPORT_SIZE` bytes. -/
def EncodedSize.Statement (i : Instr) : Prop :=
  ∀ c : Config, c.wf → i.wf c = true →
    (∀ p ∈ encodePackets c i, p.length = c.reportSize) ∧
    (encode c i).length = (encodePackets c i).length * c.reportSize ∧
    1 ≤ (encodePackets c i).length ∧ (encodePackets c i).length ≤ 129

/-- One packet of the block. -/
theorem encodedSize_of_packet {i : Instr}
    (h : ∀ c : Config, c.wf → i.wf c = true → ∃ p, encodePackets c i = [p] ∧ p.length = c.reportSize) : EncodedSize.Statement i := by
  intro c hc hi
  obtain ⟨p, hp, hl⟩ := h c hc hi
  simp [encode, hp, hl]

/-- The packets of one message. -/
theorem encodedSize_of_message {i : Instr}
    (h : ∀ c : Config, c.wf → i.wf c = true → ∃ m, encodePackets c i = fragment c m ∧ m.bcnt ≤ c.maxPayload) :
    EncodedSize.Statement i := by
  intro c hc hi
  obtain ⟨m, hp, hm⟩ := h c hc hi
  have hn := ncont_le_of_fits hc.1 hm
  have hl : ∀ p ∈ fragment c m, p.length = c.reportSize := fun p hp => length_of_mem_fragment hc.1 hp
  refine ⟨by rw [hp]; exact hl, by rw [encode, hp, flatten_length_of_all hl], ?_, ?_⟩ <;> rw [hp, fragment_length, npkts] <;> omega

/-- A short message fits every admitted block. -/
theorem fits_of_le_seventeen {c : Config} (hc : c.wf) {n : Nat} (h : n ≤ 17) : n ≤ c.maxPayload :=
  h.trans (seventeen_le_maxPayload hc.1)

theorem EncodedSize.pktInitial (cid : ChannelId) (cmd : BitVec 7) (bcnt : BitVec 16) (data : List Byte) :
    EncodedSize.Statement (.pktInitial cid cmd bcnt data) :=
  encodedSize_of_packet fun _ hc hi => ⟨_, rfl, mkInitial_length hc.1 _ _ _ (of_decide_eq_true hi).le⟩

theorem EncodedSize.pktCont (cid : ChannelId) (seq : BitVec 7) (data : List Byte) : EncodedSize.Statement (.pktCont cid seq data) :=
  encodedSize_of_packet fun _ hc hi => ⟨_, rfl, mkCont_length hc.1 _ _ (of_decide_eq_true hi).le⟩

theorem EncodedSize.cmdInit (cid : ChannelId) (payload : List Byte) : EncodedSize.Statement (.cmdInit cid payload) :=
  encodedSize_of_message fun _ _ hi => ⟨_, rfl, of_decide_eq_true hi⟩

theorem EncodedSize.cmdPing (cid : ChannelId) (payload : List Byte) : EncodedSize.Statement (.cmdPing cid payload) :=
  encodedSize_of_message fun _ _ hi => ⟨_, rfl, of_decide_eq_true hi⟩

theorem EncodedSize.cmdOther (cid : ChannelId) (cmd : BitVec 7) (payload : List Byte) :
    EncodedSize.Statement (.cmdOther cid cmd payload) :=
  encodedSize_of_message fun _ _ hi => ⟨_, rfl, of_decide_eq_true (Bool.and_eq_true_iff.1 hi).2⟩

theorem EncodedSize.rspInit (cid : ChannelId) (nonce : List Byte) (newCid : BitVec 32) :
    EncodedSize.Statement (.rspInit cid nonce newCid) :=
  encodedSize_of_message fun c hc hi => ⟨_, rfl, fits_of_le_seventeen hc
    (initResponsePayload_length c (of_decide_eq_true (Bool.and_eq_true_iff.1 (Bool.and_eq_true_iff.1 hi).1).1) newCid).le⟩

theorem EncodedSize.rspPing (cid : ChannelId) (payload : List Byte) : EncodedSize.Statement (.rspPing cid payload) :=
  encodedSize_of_message fun _ _ hi => ⟨_, rfl, of_decide_eq_true hi⟩

theorem EncodedSize.rspError (cid : ChannelId) (kind : ErrorKind) : EncodedSize.Statement (.rspError cid kind) :=
  encodedSize_of_message fun _ hc _ => ⟨_, rfl, fits_of_le_seventeen hc (by simp)⟩

theorem EncodedSize.errInvalidCmd (cid : ChannelId) : EncodedSize.Statement (.errInvalidCmd cid) :=
  encodedSize_of_message fun _ hc _ => ⟨_, rfl, fits_of_le_seventeen hc (by simp)⟩

theorem EncodedSize.errInvalidSeq (cid : ChannelId) : EncodedSize.Statement (.errInvalidSeq cid) :=
  encodedSize_of_message fun _ hc _ => ⟨_, rfl, fits_of_le_seventeen hc (by simp)⟩

theorem EncodedSize.errMsgTimeout (cid : ChannelId) : EncodedSize.Statement (.errMsgTimeout cid) :=
  encodedSize_of_message fun _ hc _ => ⟨_, rfl, fits_of_le_seventeen hc (by simp)⟩

end Sys2Proof.Laws
end

