-- ==== Sys2Proof/Laws/Session.lean ====
section
/-! SUPPORT. What each shared operation of the session driver can answer, once: the shuttles (R144, R145), the fetch, the resynchronising scan (R147). -/

namespace Sys2Proof.Machine

/-- What the receive shuttle takes from the transport: nothing unless INQ has room and data is reported (R144). -/
def takenPacket (env : TransportAnswers) (s : State) : Option Packet :=
  if !isFull s.config.queueLen s.inq && env.dataAvailable then env.tryReceive else none

/-- The receive shuttle: a buffer that is no packet is refused; else what is taken is pushed, the call recorded, the idle count moved (R144). -/
theorem receive_cases (env : TransportAnswers) (s : State) :
    (∃ p, takenPacket env s = some p ∧ p.length ≠ s.config.reportSize ∧ receive env s = .refused .packetSizeMismatch) ∨
    ((∀ p, takenPacket env s = some p → p.length = s.config.reportSize) ∧
      receive env s = .next { s with
        inq := pushAll s.config.queueLen s.inq (takenPacket env s).toList
        outputs := s.outputs ++
          (if !isFull s.config.queueLen s.inq && env.dataAvailable then [.tryReceive env.tryReceive] else [])
        idleTicks := match s.config.idleTickBudget with
          | none => s.idleTicks
          | some budget => idleAfterReceive budget (takenPacket env s).isSome s }) := by
  unfold receive takenPacket
  cases ha : !isFull s.config.queueLen s.inq && env.dataAvailable with
  | false => cases hb : s.config.idleTickBudget <;> simp [countIdle, hb, State.withIdleTicks]
  | true =>
    cases hr : env.tryReceive with
    | none =>
      cases hb : s.config.idleTickBudget <;> by_cases he : isEmpty s.inq = true <;>
        simp [countIdle, hb, he, State.withIdleTicks, idleAfterReceive, State.output]
    | some p =>
      by_cases hp : p.length = s.config.reportSize
      · cases hb : s.config.idleTickBudget <;>
          simp [hp, countIdle, hb, State.withIdleTicks, idleAfterReceive, State.output, State.withInq]
      · simp [hp]

/-- The transmit shuttle on a readable OUTQ: the oldest packet, if it is offered, is recorded, and popped when it is accepted (R145). -/
theorem transmit_eq {s : State} (hq : s.outq.Readable s.config.queueLen) (env : TransportAnswers) :
    transmit env s =
      let offered := if env.readyToSend then s.outContents.head? else none
      .next { s with
        outq := if env.trySend && offered.isSome then pop s.config.queueLen s.outq else s.outq
        outputs := s.outputs ++ offered.toList.map fun p => .trySend p env.trySend } := by
  have hlen := contents_length hq
  unfold transmit
  rw [peek_eq hq]
  cases hr : env.readyToSend with
  | false => simp
  | true =>
    cases hc : contents s.config.queueLen s.outq with
    | nil =>
      have h0 : s.outq.len = 0 := by rw [← hlen, hc]; rfl
      simp [isEmpty, h0, State.outContents, hc]
    | cons p rest =>
      have h0 : s.outq.len ≠ 0 := by rw [← hlen, hc]; simp
      cases ht : env.trySend <;> simp [isEmpty, h0, State.outContents, hc, State.output, State.withOutq]

/-- The fetch from a readable INQ: the packet at the head, decoded. -/
theorem fetch_eq {s : State} (hq : s.inq.Readable s.config.queueLen) :
    fetch s = .ok (s.inContents.head?.map decodePacket) := by
  rw [fetch, peek_eq hq]
  unfold State.inContents
  cases (contents s.config.queueLen s.inq).head? <;> rfl

/-- The packets that the scan discards are the continuations (R147). -/
theorem isStray_decodePacket (p : Packet) : isStray (decodePacket p) = isContinuation p := by
  unfold decodePacket isContinuation
  cases h : isInitial p <;> simp [isStray]

/-- Retiring twice is retiring both counts at once (R148). -/
theorem retire_retire (a b : Nat) (s : State) : retire b (retire a s) = retire (a + b) s := by
  have hi : idleCleared (retire a s) = idleCleared s := by simp only [idleCleared, retire_config, retire_idleTicks]; split <;> rfl
  rw [retire_eq b, hi, retire_config, retire_inq, ← popN_add, retire_eq (a + b), retire_eq a]
  rfl

/-- A continuation packet, executed under the open gate, retires itself (R147). -/
theorem exec_continuation {s : State} (ho : gateOpen s = true) {p : Packet} (hp : isContinuation p = true) :
    exec (decodePacket p) s = .next (retire 1 s) := by
  have hi : isInitial p = false := by simpa [isContinuation] using hp
  simp [decodePacket, hi, exec, execPktCont, whenOpen_of_open ho, discardHead_eq_retire]

/-- The state after the scan: the leading continuations retired, if there are any. -/
def scanned (s : State) : State :=
  if s.inContents.takeWhile isContinuation = [] then s else retire (s.inContents.takeWhile isContinuation).length s

/-- The scan, as one equation (R147). -/
theorem resync_eq {s : State} (hq : s.inq.Readable s.config.queueLen) (ho : gateOpen s = true) {fuel : Nat}
    (hf : s.inContents.length ≤ fuel) : resync fuel s = .next (scanned s) := by
  induction fuel generalizing s with
  | zero =>
    have h0 : s.inContents = [] := by simpa using hf
    simp [resync, scanned, h0]
  | succ n ih =>
    rw [resync, fetch_eq hq]
    cases h : s.inContents with
    | nil => simp [scanned, h]
    | cons p rest =>
      simp only [List.head?_cons, Option.map_some, isStray_decodePacket]
      cases hp : isContinuation p with
      | false => simp [scanned, h, hp]
      | true =>
        have hi : (retire 1 s).inContents = rest := by
          rw [State.inContents, retire_config, retire_inq, contents_popN hq]
          show s.inContents.drop 1 = rest
          rw [h]; rfl
        have hq' : (retire 1 s).inq.Readable (retire 1 s).config.queueLen := by simpa using hq.popN 1
        rw [h] at hf
        simp only [if_true, exec_continuation ho hp, andThen_next]
        rw [ih hq' (by simpa using ho) (by rw [hi]; simpa using hf)]
        simp only [scanned, hi, h, List.takeWhile_cons, hp, if_true]
        by_cases hr : rest.takeWhile isContinuation = []
        · simp [hr]
        · simp [hr, retire_retire, Nat.add_comm]

end Sys2Proof.Machine
end

