-- ==== Sys2Proof/Tests/Slice0.lean ====
section
/-! SUPPORT. Small tests, each naming its source in spec/, and for every statement with hypotheses a state and operands that meet them. -/

namespace Sys2Proof.Tests

open Sys2Proof Sys2Proof.Machine

/-! ## Helpers -/

/-- The parameters of 95_test_vectors.md part 0. -/
def vec : Config := { Config.reference with capabilities := 0 }

/-- The smallest packets, a queue of three slots, two polling cycles a tick. -/
def tiny : Config := { vec with reportSize := 8, queueLen := 3, tickDivider := 2 }

/-- The same with an idle budget. -/
def tinyIdle : Config := { tiny with idleTickBudget := some 2 }

/-- A configured engine with these packets in INQ. -/
def loaded (c : Config) (ps : List Packet) : State :=
  { State.resetWith c with connState := .configured, inq := loadQueue c.queueLen Queue.empty ps }

/-- The same with packets in OUTQ. -/
def sending (c : Config) (ps : List Packet) : State := (loaded c []).withOutq (loadQueue c.queueLen Queue.empty ps)

/-- A queue with a chosen head. -/
def queueAt (cap head : Nat) (ps : List Packet) : Queue := loadQueue cap { Queue.empty with head := head } ps

def cid1 : ChannelId := ⟨1, 0, 0, 0⟩
def cidA : ChannelId := ⟨0x0A, 0x0B, 0x0C, 0x0D⟩
def nonce1 : List Byte := [0x11, 0x22, 0x33, 0x44, 0x55, 0x66, 0x77, 0x88]

/-- Packets of eight bytes: an initial one that needs two continuations, continuations, a whole PING. -/
def long : Packet := [1, 0, 0, 0, 0x81, 0, 5, 0xEE]
def cont0 : Packet := [1, 0, 0, 0, 0, 1, 2, 3]
def cont1 : Packet := [1, 0, 0, 0, 1, 4, 5, 6]
def ping1 : Packet := [2, 0, 0, 0, 0x81, 0, 1, 7]

/-- A tick in which the transport has a packet, takes what it is offered, and is ready. -/
def busy (p : Option Packet) : TransportAnswers := ⟨true, p, true, true⟩

/-! ## Well-formedness: an ill-formed term for each check -/

theorem test_wf_short_initial_data : (Instr.pktInitial cid1 1 0 (zeros 56)).wf vec = false := by decide
theorem test_wf_long_cont_data : (Instr.pktCont cid1 0 (zeros 60)).wf vec = false := by decide
theorem test_wf_init_too_long : (Instr.cmdInit cid1 (zeros 386)).wf tiny = false := by decide +kernel
theorem test_wf_ping_too_long : (Instr.cmdPing cid1 (zeros 386)).wf tiny = false := by decide +kernel
theorem test_wf_other_is_init : (Instr.cmdOther cid1 0x06 []).wf vec = false := by decide
theorem test_wf_other_is_ping : (Instr.cmdOther cid1 0x01 []).wf vec = false := by decide
theorem test_wf_other_too_long : (Instr.cmdOther cid1 0x10 (zeros 386)).wf tiny = false := by decide +kernel
theorem test_wf_short_nonce : (Instr.rspInit cid1 (zeros 7) 1).wf vec = false := by decide
theorem test_wf_zero_id : (Instr.rspInit cid1 nonce1 0).wf vec = false := by decide
theorem test_wf_broadcast_id : (Instr.rspInit cid1 nonce1 0xFFFFFFFF).wf vec = false := by decide
theorem test_wf_echo_too_long : (Instr.rspPing cid1 (zeros 386)).wf tiny = false := by decide +kernel

/-- 42_fragmenter.md, F-10: 385 bytes are the most that packets of eight bytes carry (1 + 128 * 3). -/
theorem test_wf_longest_echo : (Instr.rspPing cid1 (zeros 385)).wf tiny = true := by decide +kernel

/-! ## Decoding: words written out from 30_encoding.md and 95_test_vectors.md -/

/-- C-1. -/
theorem test_decode_initial :
    decode vec .packet ([0x01, 0, 0, 0, 0x81, 0x00, 0x03, 1, 2, 3] ++ zeros 54) = .ok (.pktInitial cid1 1 3 ([1, 2, 3] ++ zeros 54)) := by
  decide
/-- C-5: bit 7 is stripped, byte 5 is the high byte. -/
theorem test_decode_initial_command_zero :
    decode vec .packet ([0, 0, 0, 0, 0x80, 0xFF, 0xFE] ++ zeros 57) = .ok (.pktInitial ⟨0, 0, 0, 0⟩ 0 0xFFFE (zeros 57)) := by decide
/-- C-4. -/
theorem test_decode_cont : decode vec .packet ([0x0A, 0x0B, 0x0C, 0x0D, 0x7F] ++ zeros 59) = .ok (.pktCont cidA 127 (zeros 59)) := by
  decide
/-- C-2. -/
theorem test_decode_cmd_init :
    decode vec .message ([0xFF, 0xFF, 0xFF, 0xFF, 0x86, 0x00, 0x08, 0x11, 0x22, 0x33, 0x44, 0x55, 0x66, 0x77, 0x88] ++ zeros 49) =
      .ok (.cmdInit .broadcast nonce1) := by decide
/-- D-4. -/
theorem test_decode_cmd_ping :
    decode vec .message ([0x01, 0, 0, 0, 0x81, 0x00, 0x03, 1, 2, 3] ++ zeros 54) = .ok (.cmdPing cid1 [1, 2, 3]) := by decide
/-- A PING of five bytes in three packets of eight. -/
theorem test_decode_cmd_ping_in_three :
    decode tiny .message [1, 0, 0, 0, 0x81, 0, 5, 9, 1, 0, 0, 0, 0, 8, 7, 6, 1, 0, 0, 0, 1, 5, 0, 0] =
      .ok (.cmdPing cid1 [9, 8, 7, 6, 5]) := by decide
/-- D-5, and D-7: a peer's ERROR is an unknown command. -/
theorem test_decode_cmd_other :
    decode vec .message ([0x01, 0, 0, 0, 0x90, 0x00, 0x02, 0xAA, 0xBB] ++ zeros 55) = .ok (.cmdOther cid1 0x10 [0xAA, 0xBB]) ∧
    decode vec .message ([0x01, 0, 0, 0, 0xBF, 0x00, 0x01, 0x05] ++ zeros 56) = .ok (.cmdOther cid1 0x3F [5]) := by decide
/-- D-1's response. -/
theorem test_decode_rsp_init :
    decode vec .emitted ([0xFF, 0xFF, 0xFF, 0xFF, 0x86, 0x00, 0x11, 0x11, 0x22, 0x33, 0x44, 0x55, 0x66, 0x77, 0x88,
      0x01, 0x00, 0x00, 0x00, 0x02, 0x00, 0x00, 0x01, 0x00] ++ zeros 40) = .ok (.rspInit .broadcast nonce1 1) := by decide
/-- 2.5: the other byte order of the new id. -/
theorem test_decode_rsp_init_big :
    decode { vec with cidByteOrder := .big } .emitted ([0xFF, 0xFF, 0xFF, 0xFF, 0x86, 0x00, 0x11, 0x11, 0x22, 0x33, 0x44, 0x55, 0x66,
      0x77, 0x88, 0x00, 0x00, 0x00, 0x01, 0x02, 0x00, 0x00, 0x01, 0x00] ++ zeros 40) = .ok (.rspInit .broadcast nonce1 1) := by decide
/-- P1's R2. -/
theorem test_decode_rsp_ping :
    decode vec .emitted ([0x01, 0, 0, 0, 0x81, 0x00, 0x03, 1, 2, 3] ++ zeros 54) = .ok (.rspPing cid1 [1, 2, 3]) := by decide
/-- X-2. -/
theorem test_decode_rsp_error :
    decode vec .emitted ([0x0A, 0x0B, 0x0C, 0x0D, 0xBF, 0x00, 0x01, 0x04] ++ zeros 56) = .ok (.rspError cidA .invalidSequence) := by decide
/-- X-1. -/
theorem test_decode_err_invalid_cmd :
    decode vec .errorByte ([0x01, 0, 0, 0, 0xBF, 0x00, 0x01, 0x01] ++ zeros 56) = .ok (.errInvalidCmd cid1) := by decide
/-- X-2. -/
theorem test_decode_err_invalid_seq :
    decode vec .errorByte ([0x0A, 0x0B, 0x0C, 0x0D, 0xBF, 0x00, 0x01, 0x04] ++ zeros 56) = .ok (.errInvalidSeq cidA) := by decide
/-- X-4. -/
theorem test_decode_err_msg_timeout :
    decode vec .errorByte ([0x01, 0, 0, 0, 0xBF, 0x00, 0x01, 0x05] ++ zeros 56) = .ok (.errMsgTimeout cid1) := by decide

/-- Refusals by name: 63 bytes; a message cut short; no response; an error code that is none; a bad INIT response. -/
theorem test_decode_refusals :
    decode vec .packet (zeros 63) = .error .wrongSize ∧
    decode tiny .message long = .error .notOneMessage ∧
    decode tiny .emitted [1, 0, 0, 0, 0x90, 0, 0, 0] = .error .notAResponse ∧
    decode tiny .emitted [1, 0, 0, 0, 0xBF, 0, 1, 9] = .error .unknownErrorCode ∧
    decode tiny .emitted [1, 0, 0, 0, 0xBF, 0, 0, 0] = .error .badErrorResponse ∧
    decode tiny .emitted [1, 0, 0, 0, 0x86, 0, 1, 0] = .error .badInitResponse ∧
    decode tiny .errorByte ping1 = .error .notAnError := by decide

/-- F-4: 58 bytes make two packets. -/
theorem test_encode_two_packets :
    encode vec (.cmdPing cid1 (List.replicate 57 0xEE ++ [0x39])) =
      [1, 0, 0, 0, 0x81, 0, 0x3A] ++ List.replicate 57 0xEE ++ [1, 0, 0, 0, 0, 0x39] ++ zeros 58 := by decide

/-- The bare words of opcode_table.json, and the place each is read at (log 12). -/
theorem test_table_words :
    decodeTableWord 8 0x80 = some (.pktInitial ⟨0, 0, 0, 0⟩ 0 0 (zeros 57)) ∧
    decodeTableWord 8 0x00 = some (.pktCont ⟨0, 0, 0, 0⟩ 0 (zeros 59)) ∧
    decodeTableWord 8 0x86 = some (.cmdInit ⟨0, 0, 0, 0⟩ []) ∧
    decodeTableWord 8 0x81 = some (.cmdPing ⟨0, 0, 0, 0⟩ []) ∧
    decodeTableWord 8 0x01 = some (.errInvalidCmd ⟨0, 0, 0, 0⟩) ∧
    decodeTableWord 8 0x04 = some (.errInvalidSeq ⟨0, 0, 0, 0⟩) ∧
    decodeTableWord 8 0x05 = some (.errMsgTimeout ⟨0, 0, 0, 0⟩) ∧
    decodeTableWord 8 0xBF = some (.pktInitial ⟨0, 0, 0, 0⟩ 0x3F 0 (zeros 57)) ∧
    decodeTableWord 32 0x010100BF = some (.rspError ⟨0, 0, 0, 0⟩ .invalidCommand) := ⟨rfl, rfl, rfl, rfl, rfl, rfl, rfl, rfl, rfl⟩

/-- A placed word runs as the first instruction after reset: PING's echo, and CONT's packet discarded. -/
theorem test_placed_words_run :
    (nextState (step (State.reset.withFetchWord 8 0x81))).map (fun t => (t.inq.len, t.outContents)) =
      some (0, [[0, 0, 0, 0, 0x81] ++ zeros 59]) ∧
    (nextState (step (State.reset.withFetchWord 8 0x00))).map (fun t => (t.inq.len, t.outContents)) = some (0, []) := ⟨rfl, rfl⟩

/-! ## The queue: 95_test_vectors.md 2.2 -/

/-- Q-2 and Q-4. -/
theorem test_push :
    push 5 ⟨3, 2, [(3, ping1), (4, long)]⟩ cont0 = ⟨3, 3, [(0, cont0), (3, ping1), (4, long)]⟩ ∧
    push 2 ⟨1, 2, [(0, ping1), (1, long)]⟩ cont0 = ⟨1, 2, [(0, ping1), (1, long)]⟩ := by decide
/-- Q-5, Q-6, Q-7, Q-8. -/
theorem test_pop :
    pop 5 ⟨4, 1, [(4, long)]⟩ = ⟨0, 0, [(4, long)]⟩ ∧ pop 5 ⟨2, 0, []⟩ = ⟨2, 0, []⟩ ∧
    popN 5 2 (queueAt 5 3 [long, ping1, cont0, cont1]) = ⟨0, 2, [(0, cont0), (1, cont1), (3, long), (4, ping1)]⟩ ∧
    (popN 5 9 (queueAt 5 3 [long, ping1, cont0, cont1])).head = 2 := by decide
/-- Q-10, Q-11, Q-12; and a slot that nothing has written (log 7). -/
theorem test_peek :
    peekN 5 (queueAt 5 4 [long, ping1, cont0]) 2 = .ok (some cont0) ∧ peekN 5 (queueAt 5 4 [long, ping1, cont0]) 3 = .ok none ∧
    peek 5 ⟨1, 0, []⟩ = .ok none ∧ peek 5 ⟨1, 1, []⟩ = .error .unspecifiedSlot := by decide

/-! ## The instructions, on small states -/

/-- R-6 and X-2: sequence number 1 where 0 is due; the error packet, two packets retired, status `error`. -/
theorem test_initial_broken :
    (nextState (exec (.pktInitial cidA 1 200 (List.replicate 57 0xEE)) (loaded vec
        [mkInitial vec cidA 1 200 (List.replicate 57 0xEE), mkCont vec cidA 1 (List.replicate 59 0xEE)]))).map
      (fun t => (t.inContents, t.outContents, t.outputs)) =
    some ([], [[0x0A, 0x0B, 0x0C, 0x0D, 0xBF, 0x00, 0x01, 0x04] ++ zeros 56], [.status .error]) := by decide
/-- R-5: the message is not all there, and nothing changes. -/
theorem test_initial_pending :
    exec (.pktInitial cid1 1 5 [0xEE]) (loaded tiny [long, cont0]) = .next (loaded tiny [long, cont0]) := rfl
/-- S-9, one packet of it. -/
theorem test_cont_discarded :
    (nextState (exec (.pktCont cid1 1 [4, 5, 6]) (loaded tiny [cont1, ping1]))).map (fun t => (t.inContents, t.outContents, t.outputs)) =
      some ([ping1], [], []) := by decide
/-- D-1. -/
theorem test_init :
    (nextState (exec (.cmdInit .broadcast nonce1) (loaded vec []))).map (fun t => (t.chanCounter, t.outContents)) =
      some (2, [[0xFF, 0xFF, 0xFF, 0xFF, 0x86, 0x00, 0x11, 0x11, 0x22, 0x33, 0x44, 0x55, 0x66, 0x77, 0x88,
        0x01, 0x00, 0x00, 0x00, 0x02, 0x00, 0x00, 0x01, 0x00] ++ zeros 40]) := by decide
/-- D-10. -/
theorem test_init_exhausted :
    (nextState (exec (.cmdInit .broadcast nonce1) ((loaded vec []).withChanCounter 0xFFFFFFFF))).map
      (fun t => (t.chanCounter, t.outContents, t.fault)) = some (0xFFFFFFFF, [], some .channelSpaceExhausted) := by decide
/-- D-4; F-9's end: what finds OUTQ full is dropped. -/
theorem test_ping :
    (nextState (exec (.cmdPing cid1 [1, 2, 3]) (loaded vec []))).map (fun t => t.outContents) =
      some [[0x01, 0, 0, 0, 0x81, 0x00, 0x03, 1, 2, 3] ++ zeros 54] ∧
    (nextState (exec (.cmdPing cid1 [1, 2, 3, 4, 5, 6, 7, 8]) (loaded tiny []))).map (fun t => t.outContents) =
      some [[1, 0, 0, 0, 0x81, 0, 8, 1], [1, 0, 0, 0, 0, 2, 3, 4], [1, 0, 0, 0, 1, 5, 6, 7]] := by decide
/-- D-5. -/
theorem test_other :
    (nextState (exec (.cmdOther cid1 0x10 [0xAA, 0xBB]) (loaded vec []))).map (fun t => (t.outContents, t.outputs)) =
      some ([[0x01, 0, 0, 0, 0xBF, 0x00, 0x01, 0x01] ++ zeros 56], []) := by decide
/-- 2.5: the order of the new id's bytes. -/
theorem test_rsp_init_big :
    (nextState (exec (.rspInit cid1 nonce1 0x01020304) (loaded { vec with cidByteOrder := .big } []))).map
      (fun t => t.outContents.map fun p => (p.drop 15).take 4) = some [[1, 2, 3, 4]] := by decide
/-- F-1: an empty echo is one packet. -/
theorem test_rsp_ping_empty :
    (nextState (exec (.rspPing cid1 []) (loaded vec []))).map (fun t => t.outContents) = some [[1, 0, 0, 0, 0x81] ++ zeros 59] := by
  decide
/-- X-5: the ERROR packet is dropped when OUTQ is full. -/
theorem test_rsp_error_full :
    (nextState (exec (.rspError cid1 .messageTimeout) (sending tiny [long, cont0, cont1]))).map (fun t => t.outContents) =
      some [long, cont0, cont1] := by decide
/-- 2.7, X-1, X-2, X-4: the three codes, and the status events that go with them. -/
theorem test_err_invalid_cmd :
    (nextState (exec (.errInvalidCmd cid1) (loaded tiny []))).map (fun t => (t.outContents, t.outputs)) =
      some ([[1, 0, 0, 0, 0xBF, 0, 1, 1]], []) := by decide
theorem test_err_invalid_seq :
    (nextState (exec (.errInvalidSeq cid1) (loaded tiny []))).map (fun t => (t.outContents, t.outputs)) =
      some ([[1, 0, 0, 0, 0xBF, 0, 1, 4]], [.status .error]) := by decide
theorem test_err_msg_timeout :
    (nextState (exec (.errMsgTimeout cid1) (loaded tiny []))).map (fun t => (t.outContents, t.outputs)) =
      some ([[1, 0, 0, 0, 0xBF, 0, 1, 5]], [.status .error]) := by decide

/-! ## The events: 95_test_vectors.md 2.6 -/

/-- S-1. -/
theorem test_gate_after_reset :
    takeEvent .process (State.resetWith vec) = .next (State.resetWith vec) ∧
    takeEvent (.frame (busy none)) (State.resetWith vec) = .next (State.resetWith vec) := ⟨rfl, rfl⟩
/-- S-2. -/
theorem test_set_conn_status :
    (nextState (takeEvent (.setConn .connected) (State.resetWith vec))).map (fun t => (t.connState, t.outputs)) =
      some (.connected, [.status .enumerating]) := by decide
/-- S-4, S-7: a full INQ is not asked for more; the oldest packet goes out. -/
theorem test_tick_full_and_sending :
    (nextState (takeEvent (.frame (busy (some ping1)))
        (((loaded tiny [long, cont0, cont1]).withOutq (queueAt 3 2 [ping1, long])).withTickDiv 1))).map
      (fun t => (t.inContents, t.outq.head, t.outContents, t.tickDiv, t.outputs)) =
    some ([long, cont0, cont1], 0, [long], 0, [.trySend ping1 true]) := by decide
/-- P4, T7 to T9: the idle count, its reset by a packet. -/
theorem test_idle_count :
    (nextState (takeEvent (.frame (busy none)) ((loaded tinyIdle [long]).withTickDiv 1))).map (fun t => t.idleTicks) = some 1 ∧
    (nextState (takeEvent (.frame (busy (some cont0))) (((loaded tinyIdle [long]).withTickDiv 1).withIdleTicks 1))).map
      (fun t => (t.idleTicks, t.inContents)) = some (0, [long, cont0]) := by decide
/-- A buffer that is no packet is refused (log 9). -/
theorem test_wrong_size_refused :
    takeEvent (.frame (busy (some [1, 2, 3]))) ((loaded tiny []).withTickDiv 1) = .refused .packetSizeMismatch := rfl
/-- S-8. -/
theorem test_process_scans_and_echoes :
    (nextState (takeEvent .process (loaded tiny [cont1, cont0, ping1]))).map (fun t => (t.inContents, t.outContents, t.outputs)) =
      some ([], [ping1], []) := by decide
/-- P4, T8: the idle budget is used up. -/
theorem test_process_abandons :
    (nextState (takeEvent .process ((loaded tinyIdle [long, cont0]).withIdleTicks 2))).map
      (fun t => (t.inContents, t.outContents, t.idleTicks, t.outputs)) =
    some ([], [[1, 0, 0, 0, 0xBF, 0, 1, 5]], 0, [.status .error]) := by decide

/-! ## Witnesses: the hypotheses of the statements are met -/

theorem witness_EveryPacketHasOneFormat :
    tiny.wf ∧ ping1.length = tiny.reportSize ∧ (byteAt ping1 4).getLsbD 7 = true ∧
    cont0.length = tiny.reportSize ∧ (byteAt cont0 4).getLsbD 7 = false := by decide
theorem witness_DecodeOfEncodeIsTheInstruction :
    tiny.wf ∧ (Instr.pktInitial cid1 0x7F 0xFFFF [1]).wf tiny = true ∧ (Instr.pktCont cid1 127 [1, 2, 3]).wf tiny = true ∧
    (Instr.cmdInit cid1 []).wf tiny = true ∧ (Instr.cmdPing cid1 (zeros 385)).wf tiny = true ∧
    (Instr.cmdOther cid1 0 [1]).wf tiny = true ∧ (Instr.rspInit cid1 nonce1 0xFFFFFFFE).wf tiny = true ∧
    (Instr.rspPing cid1 (zeros 385)).wf tiny = true ∧ (Instr.rspError cid1 .invalidCommand).wf tiny = true ∧
    (Instr.errInvalidCmd cid1).wf tiny = true ∧ (Instr.errInvalidSeq cid1).wf tiny = true ∧ (Instr.errMsgTimeout cid1).wf tiny = true := by decide +kernel
/-- Data that fills its packet, and none. -/
theorem witness_BuiltPacketsArePaddedWithZeros :
    tiny.wf ∧ (65535 : Nat) ≤ 65535 ∧ [(7 : Byte)].length = tiny.initPayloadLength ∧ ([] : List Byte).length ≤ tiny.contPayloadLength ∧
    7 + ([] : List Byte).length ≤ 7 ∧ 7 < tiny.reportSize ∧ (127 : Nat) ≤ 127 := by decide
/-- The longest message: continuation 127 is its last. -/
theorem witness_FragmentPacketsAreTheMessageInOrder :
    tiny.wf ∧ (⟨cid1, 1, zeros 385⟩ : Message).bcnt ≤ tiny.maxPayload ∧ 127 < ncont tiny 385 := by decide +kernel
theorem witness_ReassembleUndoesFragment : tiny.wf ∧ (⟨cid1, 1, zeros 385⟩ : Message).bcnt ≤ tiny.maxPayload := by decide +kernel
theorem witness_QueuedMessageReassembles :
    tiny.wf ∧ (queueAt 3 2 [[1, 0, 0, 0, 0x81, 0, 4, 9], [1, 0, 0, 0, 0, 8, 7, 6], ping1]).Inv tiny ∧
    (⟨cid1, 1, [9, 8, 7, 6]⟩ : Message).bcnt ≤ tiny.maxPayload ∧
    contents 3 (queueAt 3 2 [[1, 0, 0, 0, 0x81, 0, 4, 9], [1, 0, 0, 0, 0, 8, 7, 6], ping1]) =
      fragment tiny ⟨cid1, 1, [9, 8, 7, 6]⟩ ++ [ping1] := by decide
theorem witness_PushAppendsOrDropsSilently :
    (queueAt 3 2 [long, cont0]).head < 3 ∧ (queueAt 3 2 [long, cont0]).len < 3 ∧ (queueAt 3 2 [long, cont0, cont1]).len = 3 ∧
    (0 : Nat) ≠ ((queueAt 3 2 [long, cont0]).head + (queueAt 3 2 [long, cont0]).len) % 3 := by decide
theorem witness_PopRemovesTheOldest :
    (queueAt 3 2 [long]).head < 3 ∧ (queueAt 3 2 [long]).len = 1 ∧
    (∀ n < (queueAt 3 2 [long]).len, ((queueAt 3 2 [long]).slot.read (slotIndex 3 (queueAt 3 2 [long]) n)).isSome) ∧
    (queueAt 3 2 []).len = 0 := by decide
theorem witness_PopManyStopsWhenEmpty :
    (queueAt 3 2 [long, cont0]).head < 3 ∧ (queueAt 3 2 [long, cont0]).len ≤ 3 ∧ 0 < min 2 (queueAt 3 2 [long, cont0]).len ∧
    (∀ n < (queueAt 3 2 [long, cont0]).len,
      ((queueAt 3 2 [long, cont0]).slot.read (slotIndex 3 (queueAt 3 2 [long, cont0]) n)).isSome) := by decide
theorem witness_PeekLooksUpTheContents :
    (∀ n < (queueAt 3 2 [long, cont0]).len,
      ((queueAt 3 2 [long, cont0]).slot.read (slotIndex 3 (queueAt 3 2 [long, cont0]) n)).isSome) ∧
    1 < (queueAt 3 2 [long, cont0]).len ∧ (queueAt 3 2 [long, cont0]).len ≤ 2 := by decide
theorem witness_OverfilledQueueKeepsTheFirst : (queueAt 3 2 []).head < 3 ∧ (queueAt 3 2 []).len = 0 := by decide
theorem witness_EmptyQueueIsIdle :
    tiny.wf ∧ Queue.empty.Inv tiny ∧ contents 3 Queue.empty = [] ∧ (queueAt 3 2 [cont1]).Inv tiny ∧
    contents 3 (queueAt 3 2 [cont1]) = [cont1] ∧ isContinuation cont1 = true := by decide
theorem witness_MissingContinuationIsPending :
    tiny.wf ∧ (queueAt 3 2 [long, cont0]).Inv tiny ∧ contents 3 (queueAt 3 2 [long, cont0]) = [long, cont0] ∧
    isInitial long = true ∧ inSequence 0 [cont0] = true ∧ [cont0].length < ncont tiny (pktBcnt long).toNat := by decide
/-- A skipped number (1 where 0 is due), and a repeated one (0 where 1 is due). -/
theorem witness_WrongSequenceNumberIsAnError :
    tiny.wf ∧ (queueAt 3 2 [long, cont1]).Inv tiny ∧ contents 3 (queueAt 3 2 [long, cont1]) = long :: ([] ++ cont1 :: []) ∧
    isInitial long = true ∧ 0 < ncont tiny (pktBcnt long).toNat ∧ isContinuation cont1 = true ∧ (pktSeq cont1).toNat ≠ 0 ∧
    (queueAt 3 1 [long, cont0, cont0]).Inv tiny ∧
    contents 3 (queueAt 3 1 [long, cont0, cont0]) = long :: ([cont0] ++ cont0 :: []) ∧ inSequence 0 [cont0] = true ∧
    [cont0].length < ncont tiny (pktBcnt long).toNat ∧ isContinuation cont0 = true ∧ (pktSeq cont0).toNat ≠ [cont0].length := by
  repeat' apply And.intro
  all_goals decide
theorem witness_InterruptingInitialIsAnError :
    tiny.wf ∧ (queueAt 3 2 [long, cont0, ping1]).Inv tiny ∧
    contents 3 (queueAt 3 2 [long, cont0, ping1]) = long :: ([cont0] ++ ping1 :: []) ∧ isInitial long = true ∧
    inSequence 0 [cont0] = true ∧ [cont0].length < ncont tiny (pktBcnt long).toNat ∧ isInitial ping1 = true := by decide
theorem witness_WholeMessageCompletes :
    tiny.wf ∧ (queueAt 3 2 [long, cont0, cont1]).Inv tiny ∧
    contents 3 (queueAt 3 2 [long, cont0, cont1]) = long :: ([cont0, cont1] ++ []) ∧ isInitial long = true ∧
    inSequence 0 [cont0, cont1] = true ∧ [cont0, cont1].length = ncont tiny (pktBcnt long).toNat := by decide
theorem witness_CompletedMessageIsBounded :
    tiny.wf ∧ (queueAt 3 2 [long, cont0, cont1]).Inv tiny ∧
    reassemble tiny (peekN 3 (queueAt 3 2 [long, cont0, cont1])) 3 = .ok (.complete ⟨cid1, 1, [0xEE, 1, 2, 3, 4]⟩ 3) := by decide
/-- R-11: the second continuation comes on another channel. -/
theorem witness_ContinuationChannelIsNotCompared :
    tiny.wf ∧ (∀ p ∈ [long, cont0, cont1], p.length = tiny.reportSize) ∧
    [cont0, cont1].map (List.drop 4) = [cont0, [9, 9, 9, 9, 1, 4, 5, 6]].map (List.drop 4) ∧
    (∀ p ∈ [cont0, [9, 9, 9, 9, 1, 4, 5, 6]], p.length = tiny.reportSize) ∧
    reassembleList tiny [long, cont0, cont1] = .ok (.complete ⟨cid1, 1, [0xEE, 1, 2, 3, 4]⟩ 3) := by decide
theorem witness_ClosedGateStopsEveryInstruction :
    gateOpen (State.resetWith tiny) = false ∧ gateOpen ((loaded tiny []).withFault (some .channelSpaceExhausted)) = false := by decide

/-- The hypotheses `s.Inv` and `gateOpen s = true` of the instructions' statements. -/
theorem witness_open_states :
    (loaded tiny []).Inv ∧ gateOpen (loaded tiny []) = true ∧ (sending tiny [long, cont0, cont1]).Inv ∧
    gateOpen (sending tiny [long, cont0, cont1]) = true := by
  repeat' apply And.intro
  all_goals decide
theorem witness_RspInitQueuesSeventeenBytes : (loaded tiny []).Inv ∧ gateOpen (loaded tiny []) = true ∧ nonce1.length = 8 := by decide
/-- The longest echo, and one byte more. -/
theorem witness_RspPingQueuesTheEcho :
    (loaded tiny []).Inv ∧ gateOpen (loaded tiny []) = true ∧ (zeros 385).length ≤ tiny.maxPayload ∧
    tiny.maxPayload < (zeros 386).length := by decide +kernel
theorem witness_RspErrorQueuesOnePacket : (loaded tiny []).Inv ∧ gateOpen (loaded tiny []) = true := by decide
theorem witness_InvalidCommandIsAnswered : (loaded tiny []).Inv ∧ gateOpen (loaded tiny []) = true := by decide
theorem witness_InvalidSequenceIsAnswered : (loaded tiny []).Inv ∧ gateOpen (loaded tiny []) = true := by decide
theorem witness_MessageTimeoutIsAnswered : (loaded tiny []).Inv ∧ gateOpen (loaded tiny []) = true := by decide
theorem witness_InitAllocatesTheNextChannel :
    ((loaded tiny []).withChanCounter 0xFFFFFFFE).Inv ∧ gateOpen ((loaded tiny []).withChanCounter 0xFFFFFFFE) = true ∧
    8 ≤ nonce1.length ∧ ((loaded tiny []).withChanCounter 0xFFFFFFFE).chanCounter ≠ 0xFFFFFFFF := by decide
theorem witness_ShortInitIsRejected :
    ((loaded tiny []).withChanCounter 0xFFFFFFFF).Inv ∧ gateOpen ((loaded tiny []).withChanCounter 0xFFFFFFFF) = true ∧
    (zeros 7).length < 8 := by decide
theorem witness_ExhaustedCounterSetsTheFault :
    gateOpen ((loaded tiny []).withChanCounter 0xFFFFFFFF) = true ∧ 8 ≤ nonce1.length ∧
    ((loaded tiny []).withChanCounter 0xFFFFFFFF).chanCounter = 0xFFFFFFFF := by decide
theorem witness_PingEchoesItsPayload :
    (loaded tiny []).Inv ∧ gateOpen (loaded tiny []) = true ∧ (zeros 385).length ≤ tiny.maxPayload ∧
    tiny.maxPayload < (zeros 386).length := by decide +kernel
theorem witness_UnknownCommandIsRejected :
    (loaded tiny []).Inv ∧ gateOpen (loaded tiny []) = true ∧ (0x10 : BitVec 7) ≠ tiny.cmdInit ∧ (0x10 : BitVec 7) ≠ tiny.cmdPing := by
  decide
theorem witness_StrayContinuationIsDiscarded : (loaded tiny [cont1, ping1]).Inv ∧ gateOpen (loaded tiny [cont1, ping1]) = true := by
  decide
theorem witness_WholeMessageIsDispatched :
    (loaded tiny [long, cont0, cont1]).Inv ∧ gateOpen (loaded tiny [long, cont0, cont1]) = true ∧
    (loaded tiny [long, cont0, cont1]).inContents = long :: ([cont0, cont1] ++ []) ∧ isInitial long = true ∧
    inSequence 0 [cont0, cont1] = true ∧ [cont0, cont1].length = ncont tiny (pktBcnt long).toNat := by decide
/-- Without a budget, one tick before it is used up, and used up. -/
theorem witness_PendingMessageWaitsOrIsAbandoned :
    (loaded tiny [long, cont0]).Inv ∧ gateOpen (loaded tiny [long, cont0]) = true ∧
    (loaded tiny [long, cont0]).inContents = [long, cont0] ∧ isInitial long = true ∧ inSequence 0 [cont0] = true ∧
    [cont0].length < ncont tiny (pktBcnt long).toNat ∧ tiny.idleTickBudget = none ∧
    ((loaded tinyIdle [long, cont0]).withIdleTicks 1).Inv ∧ gateOpen (loaded tinyIdle [long, cont0]) = true ∧
    (loaded tinyIdle [long, cont0]).inContents = [long, cont0] ∧ tinyIdle.idleTickBudget = some 2 ∧
    ((loaded tinyIdle [long, cont0]).withIdleTicks 2).Inv := by
  repeat' apply And.intro
  all_goals decide
theorem witness_BrokenMessageIsAnsweredAndRetired :
    (loaded tiny [long, cont0, ping1]).Inv ∧ gateOpen (loaded tiny [long, cont0, ping1]) = true ∧
    (loaded tiny [long, cont0, ping1]).inContents = long :: ([cont0] ++ ping1 :: []) ∧ isInitial long = true ∧
    inSequence 0 [cont0] = true ∧ [cont0].length < ncont tiny (pktBcnt long).toNat ∧ isInitial ping1 = true ∧
    (loaded tiny [long, cont1, ping1]).Inv ∧
    (loaded tiny [long, cont1, ping1]).inContents = long :: ([] ++ cont1 :: [ping1]) ∧ (pktSeq cont1).toNat ≠ 0 := by
  repeat' apply And.intro
  all_goals decide
theorem witness_SuccessiveInitsGetDifferentChannels :
    ((loaded tiny []).withChanCounter 0xFFFFFFFD).Inv ∧ gateOpen ((loaded tiny []).withChanCounter 0xFFFFFFFD) = true ∧
    8 ≤ nonce1.length ∧ ((loaded tiny []).withChanCounter 0xFFFFFFFD).chanCounter.toNat + 1 < 0xFFFFFFFF := by decide
/-- The three heads a PROCESS step can meet: initial, continuation, none. -/
theorem witness_StepRunsTheInstructionAtTheHead :
    ((loaded tiny [ping1]).withPending [.process]).Inv ∧ gateOpen ((loaded tiny [ping1]).withPending [.process]) = true ∧
    nextEvent ((loaded tiny [ping1]).withPending [.process]) = .process ∧ (loaded tiny [ping1]).inContents = [ping1] ∧
    decode tiny .packet ping1 = .ok (.pktInitial ⟨2, 0, 0, 0⟩ 1 1 [7]) ∧ isInitial ping1 = true ∧
    ((loaded tiny [cont1]).withPending [.process]).Inv ∧ (loaded tiny [cont1]).inContents = [cont1] ∧
    decode tiny .packet cont1 = .ok (.pktCont cid1 1 [4, 5, 6]) ∧ isInitial cont1 = false ∧
    ((loaded tiny []).withPending [.process]).Inv ∧ (loaded tiny []).inContents = [] ∧ (loaded tiny []).pending = [] := by
  repeat' apply And.intro
  all_goals decide
theorem witness_ProcessFollowsItsPseudocode :
    (loaded tiny [cont1, ping1]).Inv ∧ gateOpen (loaded tiny [cont1, ping1]) = true := by decide
/-- With a budget and strays in front of a message, without strays, and strays only. -/
theorem witness_StrayContinuationsVanishSilently :
    ((loaded tinyIdle [cont1, ping1]).withIdleTicks 2).Inv ∧ gateOpen ((loaded tinyIdle [cont1, ping1]).withIdleTicks 2) = true ∧
    (loaded tinyIdle [cont1, ping1]).inContents.takeWhile isContinuation = [cont1] ∧
    ((loaded tinyIdle [ping1]).withIdleTicks 2).Inv ∧ gateOpen ((loaded tinyIdle [ping1]).withIdleTicks 2) = true ∧
    (loaded tiny [cont1, cont0]).Inv ∧ gateOpen (loaded tiny [cont1, cont0]) = true ∧
    (loaded tiny [cont1, cont0]).inContents.all isContinuation = true := by
  repeat' apply And.intro
  all_goals decide
theorem witness_GateSuspendsTheEngine :
    ((loaded tiny []).withFault (some .channelSpaceExhausted)).fault ≠ none ∧ Event.process ≠ .reset ∧
    (State.resetWith tiny).connState ≠ .configured ∧ (State.resetWith tiny).fault = none := by decide
theorem witness_FrameBetweenTicksOnlyCounts :
    gateOpen (loaded tiny []) = true ∧ (loaded tiny []).tickDiv + 1 ≠ (loaded tiny []).config.tickDivider := by decide
/-- Room for one more packet, and none; with a budget, and without. -/
theorem witness_TickMovesAtMostOnePacketEachWay :
    ((loaded tiny [long, cont0]).withTickDiv 1).Inv ∧ gateOpen ((loaded tiny [long, cont0]).withTickDiv 1) = true ∧
    eventFits tiny (.frame (busy (some cont1))) = true ∧
    ((loaded tiny [long, cont0]).withTickDiv 1).tickDiv + 1 = tiny.tickDivider ∧ tiny.idleTickBudget = none ∧
    ((loaded tinyIdle [long, cont0, cont1]).withTickDiv 1).Inv ∧
    gateOpen ((loaded tinyIdle [long, cont0, cont1]).withTickDiv 1) = true ∧ tinyIdle.idleTickBudget = some 2 := by
  repeat' apply And.intro
  all_goals decide
theorem witness_SetConnChangesOnlyTheMode : (loaded tiny [long]).fault = none := by decide
theorem witness_ResetIsTakenInEveryState : ((loaded tiny [long]).withFault (some .channelSpaceExhausted)).config.wf := by decide
theorem witness_ResetStateHasTheInvariant : tiny.wf ∧ Config.reference.wf := by decide
theorem witness_EveryStepKeepsTheInvariant :
    ((loaded tiny [ping1]).withPending [.process]).Inv ∧
    (nextState (step ((loaded tiny [ping1]).withPending [.process]))).isSome = true := by decide
theorem witness_EngineNeverStops :
    ((loaded tiny [ping1]).withPending [.frame (busy (some cont0))]).Inv ∧
    eventFits tiny (nextEvent ((loaded tiny [ping1]).withPending [.frame (busy (some cont0))])) = true := by decide
/-- Two states that hold the same packet in different slots, over different old ones. -/
theorem witness_StaleSlotsCannotBeObserved :
    (loaded tiny [ping1]).Inv ∧ ((loaded tiny []).withInq ⟨2, 1, [(0, long), (2, ping1)]⟩).Inv ∧
    Indistinguishable (loaded tiny [ping1]) ((loaded tiny []).withInq ⟨2, 1, [(0, long), (2, ping1)]⟩) := by
  repeat' apply And.intro
  all_goals decide
/-- An INIT request of eight bytes on packets of 64 is allocated a channel by one step. -/
theorem witness_ChannelCounterOnlyCountsUp :
    ((loaded vec (fragment vec ⟨.broadcast, 6, nonce1⟩)).withPending [.process]).Inv ∧
    nextEvent ((loaded vec (fragment vec ⟨.broadcast, 6, nonce1⟩)).withPending [.process]) ≠ .reset ∧
    (nextState (step ((loaded vec (fragment vec ⟨.broadcast, 6, nonce1⟩)).withPending [.process]))).map (fun t => t.chanCounter) =
      some 2 := by decide
/-- The fault is set by a step, and stays in the next. -/
theorem witness_FaultComesFromExhaustionAndStays :
    (((loaded vec (fragment vec ⟨.broadcast, 6, nonce1⟩)).withChanCounter 0xFFFFFFFF).withPending [.process]).Inv ∧
    (nextState (step (((loaded vec (fragment vec ⟨.broadcast, 6, nonce1⟩)).withChanCounter 0xFFFFFFFF).withPending
      [.process]))).map (fun t => t.fault) = some (some .channelSpaceExhausted) ∧
    (nextState (step (((loaded tiny []).withFault (some .channelSpaceExhausted)).withPending [.process]))).isSome = true ∧
    nextEvent (((loaded tiny []).withFault (some .channelSpaceExhausted)).withPending [.process]) ≠ .reset := by decide
theorem witness_ParametersNeverChange : (nextState (step ((loaded tiny []).withPending [.reset]))).isSome = true := by decide
theorem witness_ProcessSendsAtMostOneResponse :
    (loaded tiny [ping1]).Inv ∧ (nextState (takeEvent .process (loaded tiny [ping1]))).isSome = true := by decide
theorem witness_QueuesAreFirstInFirstOut :
    (loaded tiny [ping1]).Inv ∧ (nextState (takeEvent .process (loaded tiny [ping1]))).isSome = true ∧
    (nextState (takeEvent (.frame (busy (some cont0))) (loaded tiny [ping1]))).isSome = true := by decide
/-- A request of eight bytes needs four packets of eight, and INQ holds three. -/
theorem witness_OversizedRequestWedgesTheEngine :
    (loaded tiny [[1, 0, 0, 0, 0x81, 0, 8, 0], cont0, cont1]).Inv ∧ tiny.idleTickBudget = none ∧
    (loaded tiny [[1, 0, 0, 0, 0x81, 0, 8, 0], cont0, cont1]).inContents = [1, 0, 0, 0, 0x81, 0, 8, 0] :: [cont0, cont1] ∧
    inSequence 0 [cont0, cont1] = true ∧ (loaded tiny [[1, 0, 0, 0, 0x81, 0, 8, 0], cont0, cont1]).inq.len = tiny.queueLen ∧
    tiny.queueLen < npkts tiny (pktBcnt [1, 0, 0, 0, 0x81, 0, 8, 0]).toNat ∧ Event.process ≠ .reset ∧
    (nextState (takeEvent .process (loaded tiny [[1, 0, 0, 0, 0x81, 0, 8, 0], cont0, cont1]))).isSome = true := by decide
/-- A stray, a PING of one packet, one packet behind it; OUTQ with room for exactly one. -/
theorem witness_QueuedPingIsEchoedWhole :
    ((loaded tiny [cont1, ping1, long]).withOutq (queueAt 3 1 [long, cont0])).Inv ∧
    gateOpen ((loaded tiny [cont1, ping1, long]).withOutq (queueAt 3 1 [long, cont0])) = true ∧
    [(7 : Byte)].length ≤ tiny.maxPayload ∧ [cont1].all isContinuation = true ∧
    (loaded tiny [cont1, ping1, long]).inContents = [cont1] ++ fragment tiny ⟨⟨2, 0, 0, 0⟩, tiny.cmdPing, [7]⟩ ++ [long] ∧
    (queueAt 3 1 [long, cont0]).len + npkts tiny [(7 : Byte)].length ≤ tiny.queueLen := by decide
theorem witness_ProcessReachesQuiescence :
    (loaded tiny [cont1, ping1, long]).Inv ∧ gateOpen (loaded tiny [cont1, ping1, long]) = true := by decide
/-- The longest PING of one packet, OUTQ with one free slot. -/
theorem witness_ReferenceTickEchoesAPing :
    (sending tiny [long, cont0]).Inv ∧ gateOpen (sending tiny [long, cont0]) = true ∧ (sending tiny [long, cont0]).tickDiv = 0 ∧
    (sending tiny [long, cont0]).inContents = [] ∧ (sending tiny [long, cont0]).outq.len < tiny.queueLen ∧
    [(7 : Byte)].length = tiny.initPayloadLength ∧ [(7 : Byte)].length ≤ 65535 := by decide

end Sys2Proof.Tests
end

section
/-! PROOFS. The packet decoder is total and loses no bit (R53): a packet is its fields, laid out again as R51 or R52 says, so encoding what it
decodes to gives the packet back. -/

namespace Sys2Proof.Machine

/-- The classifier compares byte 4 with `0x80`; that comparison is its bit 7 (R70). -/
theorem isInitial_eq_bit_seven (p : Packet) : isInitial p = (byteAt p 4).getLsbD 7 := by
  rw [isInitial, ← BitVec.msb_eq_getLsbD_last, BitVec.msb_eq_decide]

/-- A byte inside a packet heads what follows from its place on. -/
theorem drop_eq_byteAt_cons {p : Packet} {i : Nat} (h : i < p.length) : p.drop i = byteAt p i :: p.drop (i + 1) := by
  rw [List.drop_eq_getElem_cons h, byteAt, List.getD_eq_getElem _ _ h]

/-- What both formats share (R51, R52): the channel id, then byte 4. -/
theorem packet_eq_cid_byte_four {p : Packet} (h : 5 ≤ p.length) :
    p = (pktCid p).b0 :: (pktCid p).b1 :: (pktCid p).b2 :: (pktCid p).b3 :: byteAt p 4 :: p.drop 5 := by
  calc p = p.drop 0 := rfl
    _ = byteAt p 0 :: byteAt p 1 :: byteAt p 2 :: byteAt p 3 :: byteAt p 4 :: p.drop 5 := by
      rw [drop_eq_byteAt_cons (by omega), drop_eq_byteAt_cons (by omega), drop_eq_byteAt_cons (by omega),
        drop_eq_byteAt_cons (by omega), drop_eq_byteAt_cons (by omega)]

/-- Byte 4 of an INITIAL packet is its command with bit 7 set (R51). -/
theorem ofNat_add_pktCmd {p : Packet} (h : isInitial p = true) : BitVec.ofNat 8 (0x80 + (pktCmd p).toNat) = byteAt p 4 := by
  have h4 : 0x80 ≤ (byteAt p 4).toNat := of_decide_eq_true h
  apply BitVec.eq_of_toNat_eq
  simp only [pktCmd, BitVec.toNat_ofNat]
  omega

/-- Byte 4 of a CONT packet is its sequence number (R52). -/
theorem ofNat_pktSeq {p : Packet} (h : isInitial p = false) : BitVec.ofNat 8 (pktSeq p).toNat = byteAt p 4 := by
  have h4 : ¬ 0x80 ≤ (byteAt p 4).toNat := of_decide_eq_false h
  apply BitVec.eq_of_toNat_eq
  simp only [pktSeq, BitVec.toNat_ofNat]
  omega

/-- The count field holds the whole of `be16` of its two bytes (R74). -/
theorem pktBcnt_toNat (p : Packet) : (pktBcnt p).toNat = be16 (byteAt p 5) (byteAt p 6) :=
  Nat.mod_eq_of_lt (be16_lt _ _)

/-- An INITIAL packet is built again from its fields (R51, R77). -/
theorem mkInitial_of_fields {c : Config} {p : Packet} (h : isInitial p = true) (hl : p.length = c.reportSize) (hc : 8 ≤ c.reportSize) :
    mkInitial c (pktCid p) (pktCmd p) (pktBcnt p).toNat (p.drop 7) = p := by
  obtain ⟨hhi, hlo⟩ := encBe16_be16 (byteAt p 5) (byteAt p 6)
  have hbcnt : p.drop 5 = byteAt p 5 :: byteAt p 6 :: p.drop 7 := by
    rw [drop_eq_byteAt_cons (by omega), drop_eq_byteAt_cons (by omega)]
  have hpad : zeros (c.initPayloadLength - (p.drop 7).length) = [] := by
    simp [zeros, Config.initPayloadLength, hl]
  rw [mkInitial_eq, ofNat_add_pktCmd h, pktBcnt_toNat, hhi, hlo, hpad, List.append_nil, ← hbcnt]
  exact (packet_eq_cid_byte_four (by omega)).symm

/-- A CONT packet is built again from its fields (R52, R78). -/
theorem mkCont_of_fields {c : Config} {p : Packet} (h : isInitial p = false) (hl : p.length = c.reportSize) (hc : 8 ≤ c.reportSize) :
    mkCont c (pktCid p) (pktSeq p).toNat (p.drop 5) = p := by
  have hpad : zeros (c.contPayloadLength - (p.drop 5).length) = [] := by
    simp [zeros, Config.contPayloadLength, hl]
  rw [mkCont_eq, ofNat_pktSeq h, hpad, List.append_nil]
  exact (packet_eq_cid_byte_four (by omega)).symm

theorem decodePacket_of_initial {p : Packet} (h : isInitial p = true) :
    decodePacket p = .pktInitial (pktCid p) (pktCmd p) (pktBcnt p) (p.drop 7) := by
  simp [decodePacket, pktData, h]

theorem decodePacket_of_cont {p : Packet} (h : isInitial p = false) :
    decodePacket p = .pktCont (pktCid p) (pktSeq p) (p.drop 5) := by
  simp [decodePacket, pktData, h]

/-- No string of `REPORT_SIZE` bytes is refused as a packet (R53). -/
theorem decode_packet {c : Config} {p : Packet} (hl : p.length = c.reportSize) : decode c .packet p = .ok (decodePacket p) :=
  if_pos hl

/-- What a packet decodes to has its data field filled (R51, R52). -/
theorem wf_decodePacket {c : Config} {p : Packet} (hl : p.length = c.reportSize) : (decodePacket p).wf c = true := by
  cases h : isInitial p with
  | true => simp [decodePacket_of_initial h, Instr.wf, Config.initPayloadLength, hl]
  | false => simp [decodePacket_of_cont h, Instr.wf, Config.contPayloadLength, hl]

/-- The encoder undoes the packet decoder (R53, R54). -/
theorem encode_decodePacket {c : Config} {p : Packet} (hl : p.length = c.reportSize) (hc : 8 ≤ c.reportSize) :
    encode c (decodePacket p) = p := by
  cases h : isInitial p with
  | true => simp [decodePacket_of_initial h, encode, encodePackets, mkInitial_of_fields h hl hc]
  | false => simp [decodePacket_of_cont h, encode, encodePackets, mkCont_of_fields h hl hc]

/-- Settles O3: the format is the one that bit 7 of byte 4 tells, and the packet comes back from its fields in either. -/
theorem everyPacketHasOneFormat : Obligations.EveryPacketHasOneFormat := by
  intro c p hc hl
  rw [← isInitial_eq_bit_seven, decode_packet hl]
  exact ⟨fun h => congrArg _ (decodePacket_of_initial h), fun h => congrArg _ (decodePacket_of_cont h),
    decodePacket p, rfl, wf_decodePacket hl, encode_decodePacket hl hc.1⟩

end Sys2Proof.Machine
end

section
/-! PROOFS. The packet codec's own family (R70, R71, R77, R78): what the classifier reads, and the bytes of the packets the two builders make. Both
builders end in the data and zeros behind it, so the padding is proved once, of any packet with such an end. -/

namespace Sys2Proof.Machine

theorem isInitial_iff (p : Packet) : isInitial p = true ↔ 0x80 ≤ (byteAt p 4).toNat := decide_eq_true_iff

theorem isContinuation_iff (p : Packet) : isContinuation p = true ↔ (byteAt p 4).toNat < 0x80 := by
  simp [isContinuation, isInitial]

/-- The classifier sees nothing of a packet but byte 4 (R70). -/
theorem isInitial_congr {p q : Packet} (h : byteAt q 4 = byteAt p 4) : isInitial q = isInitial p := by
  rw [isInitial, isInitial, h]

/-- Settles O2: the threshold `0x80` on byte 4 is its bit 7, and the classifier is a function of that byte. -/
theorem classifierIsBitSevenOfByteFour : Obligations.ClassifierIsBitSevenOfByteFour := by
  intro p
  exact ⟨isInitial_eq_bit_seven p, isInitial_iff p, rfl, isContinuation_iff p, fun _ => isInitial_congr⟩

theorem drop_mkInitial (c : Config) (cid : ChannelId) (cmd : BitVec 7) (bcnt : Nat) (d : List Byte) :
    (mkInitial c cid cmd bcnt d).drop 7 = d ++ zeros (c.initPayloadLength - d.length) := by
  rw [mkInitial_eq]
  rfl

theorem take_mkInitial (c : Config) (cid : ChannelId) (cmd : BitVec 7) (bcnt : Nat) (d : List Byte) :
    (mkInitial c cid cmd bcnt d).take 4 = cid.bytes := by
  rw [mkInitial_eq]
  rfl

theorem take_mkCont (c : Config) (cid : ChannelId) (seq : Nat) (d : List Byte) : (mkCont c cid seq d).take 4 = cid.bytes := by
  rw [mkCont_eq]
  rfl

theorem byteAt_mkInitial_four (c : Config) (cid : ChannelId) (cmd : BitVec 7) (bcnt : Nat) (d : List Byte) :
    (byteAt (mkInitial c cid cmd bcnt d) 4).toNat = 0x80 + cmd.toNat := by
  have := cmd.isLt
  simp only [mkInitial_eq, byteAt, List.getD_cons_succ, List.getD_cons_zero, BitVec.toNat_ofNat]
  omega

theorem byteAt_mkCont_four (c : Config) (cid : ChannelId) {seq : Nat} (h : seq < 128) (d : List Byte) :
    (byteAt (mkCont c cid seq d) 4).toNat = seq := by
  simp only [mkCont_eq, byteAt, List.getD_cons_succ, List.getD_cons_zero, BitVec.toNat_ofNat]
  omega

/-- Bytes 5 and 6 are the length, most significant byte first; both fit, as no length is over 65535 (R12, R77). -/
theorem byteAt_mkInitial_bcnt (c : Config) (cid : ChannelId) (cmd : BitVec 7) {bcnt : Nat} (h : bcnt < 65536) (d : List Byte) :
    (byteAt (mkInitial c cid cmd bcnt d) 5).toNat = bcnt / 256 ∧ (byteAt (mkInitial c cid cmd bcnt d) 6).toNat = bcnt % 256 := by
  simp only [mkInitial_eq, byteAt, List.getD_cons_succ, List.getD_cons_zero, encBe16Hi, encBe16Lo, BitVec.toNat_ofNat]
  omega

/-- Data in a field that zeros fill up is read back at the field's start. -/
theorem take_drop_of_padded {p : Packet} {k n : Nat} {d : List Byte} (h : p.drop k = d ++ zeros n) : (p.drop k).take d.length = d := by
  rw [h, List.take_left]

/-- From the end of the data to the end of the packet there are only zeros. -/
theorem getElem?_of_padded {p : Packet} {k n i : Nat} {d : List Byte} (h : p.drop k = d ++ zeros n)
    (hd : k + d.length ≤ i) (hp : i < p.length) : p[i]? = some 0 := by
  have hlen : p.length - k = d.length + n := by simpa using congrArg List.length h
  calc p[i]? = (p.drop k)[i - k]? := by rw [List.getElem?_drop, Nat.add_sub_cancel' (by omega)]
    _ = (zeros n)[i - k - d.length]? := by rw [h, List.getElem?_append_right (by omega)]
    _ = some 0 := List.getElem?_replicate_of_lt (by omega)

/-- Settles O58: the header of either format byte by byte, then its data field, which is the data and zeros to the end of the packet. -/
theorem builtPacketsArePaddedWithZeros : Obligations.BuiltPacketsArePaddedWithZeros := by
  constructor
  · intro c cid cmd bcnt d hc hbcnt hd p
    have hlen : p.length = c.reportSize := mkInitial_length (Config.wf.reportSize hc) cid cmd bcnt hd
    have hfield := drop_mkInitial c cid cmd bcnt d
    obtain ⟨hhi, hlo⟩ := byteAt_mkInitial_bcnt c cid cmd (Nat.lt_succ_of_le hbcnt) d
    exact ⟨hlen, isInitial_mkInitial .., take_mkInitial .., byteAt_mkInitial_four .., hhi, hlo, take_drop_of_padded hfield,
      fun i hi hsize => getElem?_of_padded hfield hi (hlen ▸ hsize)⟩
  · intro c cid seq d hc hseq hd p
    have hlen : p.length = c.reportSize := mkCont_length (Config.wf.reportSize hc) cid seq hd
    have hfield := drop_mkCont c cid seq d
    have hfour : (byteAt p 4).toNat = seq := byteAt_mkCont_four c cid (Nat.lt_succ_of_le hseq) d
    exact ⟨hlen, (isContinuation_iff p).2 (by omega), take_mkCont .., hfour, take_drop_of_padded hfield,
      fun i hi hsize => getElem?_of_padded hfield hi (hlen ▸ hsize)⟩

end Sys2Proof.Machine
end

section
/-! PROOFS. The packet queue's own family (R80 to R84): the two flags as equations on the count (R85, R86), then each operation's effect, assembled from
the laws of the queue. -/

namespace Sys2Proof.Machine

theorem isEmpty_iff (q : Queue) : isEmpty q = true ↔ q.len = 0 := decide_eq_true_iff

theorem isEmpty_eq_false_iff (q : Queue) : isEmpty q = false ↔ q.len ≠ 0 := decide_eq_false_iff_not

theorem isFull_iff (cap : Nat) (q : Queue) : isFull cap q = true ↔ q.len = cap := decide_eq_true_iff

theorem isFull_eq_false_iff (cap : Nat) (q : Queue) : isFull cap q = false ↔ q.len ≠ cap := decide_eq_false_iff_not

theorem push_len_of_room {cap : Nat} {q : Queue} (hr : q.len < cap) (p : Packet) : (push cap q p).len = q.len + 1 := by
  rw [push_len, if_pos hr]

theorem read_push_tail {cap : Nat} {q : Queue} (hr : q.len < cap) (p : Packet) :
    (push cap q p).slot.read (tailIndex cap q) = some p := by
  rw [push_of_room hr]
  exact Memory.read_write_same ..

/-- A push writes no slot but the tail slot, with room or without (R80). -/
theorem read_push_other {cap : Nat} {q : Queue} (p : Packet) {i : Nat} (hi : i ≠ tailIndex cap q) :
    (push cap q p).slot.read i = q.slot.read i := by
  by_cases hr : q.len < cap
  · rw [push_of_room hr]
    exact Memory.read_write_other _ p hi
  · rw [push_of_full (Nat.not_lt.1 hr)]

/-- Settles O8: with room only the tail slot and the count change, and the packet stands last; a full queue drops it. -/
theorem pushAppendsOrDropsSilently : Obligations.PushAppendsOrDropsSilently := by
  intro cap q p _ _
  constructor
  · intro hr
    have hlen := push_len_of_room hr p
    have hempty : isEmpty (push cap q p) = false := (isEmpty_eq_false_iff _).2 (by omega)
    have hfull : isFull cap (push cap q p) = true ↔ q.len + 1 = cap := by rw [isFull_iff, hlen]
    exact ⟨push_head cap q p, hlen, read_push_tail hr p, fun _ => read_push_other p, contents_push hr p, hempty, hfull⟩
  · intro hfull
    exact push_of_full hfull.ge p

/-- Settles O9: the cursor moves one slot on and the count falls by one, so the contents lose their first packet. -/
theorem popRemovesTheOldest : Obligations.PopRemovesTheOldest := by
  intro cap q _ hcap hrd
  constructor
  · intro hpos
    have hlen := pop_len cap q
    have hfull : isFull cap (pop cap q) = false := (isFull_eq_false_iff cap _).2 (by omega)
    have hempty : isEmpty (pop cap q) = true ↔ q.len = 1 := by rw [isEmpty_iff]; omega
    exact ⟨pop_head hpos, hlen, pop_slot cap q, contents_pop hrd, hfull, hempty⟩
  · exact pop_of_empty

/-- `pop_n` in closed form: it stops after the last packet (R82). -/
theorem popN_eq {cap : Nat} {q : Queue} (hh : q.head < cap) (n : Nat) :
    popN cap n q = ⟨(q.head + min n q.len) % cap, q.len - min n q.len, q.slot⟩ := by
  have hlen : (popN cap n q).len = q.len - min n q.len := by rw [popN_len]; omega
  rw [← popN_head hh n, ← hlen, ← popN_slot cap n q]

/-- Popping more packets than there are is popping them all. -/
theorem popN_min {cap : Nat} {q : Queue} (hh : q.head < cap) (n : Nat) : popN cap n q = popN cap (min n q.len) q := by
  rw [popN_eq hh, popN_eq hh, Nat.min_assoc, Nat.min_self]

/-- Settles O10: the closed form gives the cursors and the flags, and the contents lose as many packets as the cursor passes. -/
theorem popManyStopsWhenEmpty : Obligations.PopManyStopsWhenEmpty := by
  intro cap q n hh hcap hrd
  have hlen := popN_len cap n q
  have hcontents : contents cap (popN cap n q) = (contents cap q).drop (min n q.len) := by
    rw [popN_min hh, contents_popN hrd]
  have hempty : isEmpty (popN cap n q) = true ↔ q.len ≤ n := by rw [isEmpty_iff]; omega
  have hfull : 0 < min n q.len → isFull cap (popN cap n q) = false :=
    fun hpopped => (isFull_eq_false_iff cap _).2 (by omega)
  exact ⟨popN_eq hh n, hcontents, hempty, hfull⟩

theorem peekN_of_past_end {cap : Nat} {q : Queue} {n : Nat} (h : q.len ≤ n) : peekN cap q n = .ok none := if_pos h

theorem peekN_of_read {cap : Nat} {q : Queue} {n : Nat} {p : Packet} (hn : n < q.len)
    (hp : q.slot.read (slotIndex cap q n) = some p) : peekN cap q n = .ok (some p) := by
  simp [peekN, Nat.not_le.2 hn, hp]

/-- Settles O11: past the end there is no packet, before it the slot of the offset has been written, and either way the contents say which. -/
theorem peekLooksUpTheContents : Obligations.PeekLooksUpTheContents := by
  intro cap q n hrd
  have hqueued : n < q.len → ∃ p, peekN cap q n = .ok (some p) ∧ q.slot.read ((q.head + n) % cap) = some p := by
    intro hn
    obtain ⟨p, hp⟩ := Option.isSome_iff_exists.1 (hrd n hn)
    exact ⟨p, peekN_of_read hn hp, hp⟩
  exact ⟨peekN_eq hrd n, peekN_of_past_end, hqueued, peek_eq hrd⟩

end Sys2Proof.Machine
end

section
/-! PROOFS. The fragmenter's own family (R92, R93): the packet at each place of a fragmented message. The slice bounds of the spec are those of
`contSlice`, and R91's ceiling keeps every sequence number in its seven bits. -/

namespace Sys2Proof.Machine

/-- The initial packet carries `n0 = min(L, IPL)` payload bytes (R92). -/
theorem take_min_bcnt (m : Message) (n : Nat) : m.payload.take (min m.bcnt n) = m.payload.take n := by
  rw [Message.bcnt, Nat.min_comm, ← List.take_take, List.take_length]

/-- The slice from `lo` up to `hi = min(L, lo + CPL)` is the one the model takes (R93). -/
theorem drop_take_eq_contSlice (c : Config) (m : Message) (k : Nat) :
    (m.payload.take (min m.bcnt (c.initPayloadLength + k * c.contPayloadLength + c.contPayloadLength))).drop
        (c.initPayloadLength + k * c.contPayloadLength) = contSlice c m.payload k := by
  rw [take_min_bcnt, List.drop_take, Nat.add_sub_cancel_left, contSlice]

theorem fragment_getElem?_zero (c : Config) (m : Message) : (fragment c m)[0]? = some (fragmentHead c m) := rfl

/-- Packet `1 + k` of a message is there exactly for the `ncont(L)` continuations, and is the one with number `k` (R93). -/
theorem fragment_getElem?_succ_eq_some_iff (c : Config) (m : Message) (k : Nat) (p : Packet) :
    (fragment c m)[1 + k]? = some p ↔ k < ncont c m.bcnt ∧ mkCont c m.cid k (contSlice c m.payload k) = p := by
  rw [fragment_eq, Nat.add_comm, List.getElem?_cons_succ, fragmentTail, List.getElem?_map, Option.map_eq_some_iff]
  simp only [List.getElem?_eq_some_iff, List.length_range, List.getElem_range]
  constructor
  · rintro ⟨_, ⟨hk, rfl⟩, hp⟩
    exact ⟨hk, hp⟩
  · rintro ⟨hk, hp⟩
    exact ⟨k, ⟨hk, rfl⟩, hp⟩

/-- "Every packet of the message carries the same `cid`" (R93). -/
theorem pktCid_of_mem_fragment {c : Config} {m : Message} {p : Packet} (h : p ∈ fragment c m) : pktCid p = m.cid := by
  rcases List.mem_cons.1 h with rfl | htail
  · exact pktCid_mkInitial ..
  · obtain ⟨k, _, rfl⟩ := List.mem_map.1 htail
    exact pktCid_mkCont ..

/-- The header fields of the initial packet: the command and the whole length (R92). -/
theorem fragmentHead_header {c : Config} {m : Message} (hm : m.bcnt ≤ c.maxPayload) :
    isInitial (fragmentHead c m) = true ∧ pktCmd (fragmentHead c m) = m.cmd ∧ (pktBcnt (fragmentHead c m)).toNat = m.bcnt := by
  have hbcnt : m.bcnt < 65536 := Nat.lt_succ_of_le (hm.trans (Nat.min_le_right _ _))
  exact ⟨isInitial_mkInitial .., pktCmd_mkInitial .., pktBcnt_mkInitial _ _ _ hbcnt _⟩

/-- "`k` never exceeds 127 by rule R91" (R93). -/
theorem cont_lt_of_fits {c : Config} (hc : c.wf) {len k : Nat} (hfits : len ≤ c.maxPayload) (hk : k < ncont c len) : k < 128 :=
  hk.trans_le (ncont_le_of_fits (Config.wf.reportSize hc) hfits)

/-- Settles O5: the packet at each place is the builder's, on the slice the spec names. The builders' layout is
their definition, and a packet's fields are read back by the codec's laws. -/
theorem fragmentPacketsAreTheMessageInOrder : Obligations.FragmentPacketsAreTheMessageInOrder := by
  intro c m hc hm cidBytes first slice
  have hhead : (fragment c m)[0]? = some (mkInitial c m.cid m.cmd m.bcnt first) := by
    rw [fragment_getElem?_zero, fragmentHead, ← take_min_bcnt]
  have hcont : ∀ k < ncont c m.bcnt, (fragment c m)[1 + k]? = some (mkCont c m.cid k (slice k)) := fun k hk =>
    (fragment_getElem?_succ_eq_some_iff ..).2 ⟨hk, by rw [← drop_take_eq_contSlice]⟩
  refine ⟨fragment_length c m, hhead, rfl, fun k hk => ?_, fun p hp => ?_, fun p hp => ?_, fun k p hp => ?_⟩
  · exact ⟨Nat.le_of_lt_succ (cont_lt_of_fits hc hm hk), hcont k hk, rfl⟩
  · exact ⟨length_of_mem_fragment (Config.wf.reportSize hc) hp, pktCid_of_mem_fragment hp⟩
  · obtain rfl : fragmentHead c m = p := Option.some.inj hp
    exact fragmentHead_header hm
  · obtain ⟨hk, rfl⟩ := (fragment_getElem?_succ_eq_some_iff ..).1 hp
    have hseq := cont_lt_of_fits hc hm hk
    exact ⟨by rw [isContinuation, isInitial_mkCont c m.cid hseq, Bool.not_false], pktSeq_mkCont c m.cid hseq _⟩

end Sys2Proof.Machine
end

section
/-! PROOFS. The reassembler's own family (R103 to R108). An attempt on an initial packet with `k` good continuations behind it, no more than the message
needs, is the loop's next round after them, with what they carry built; each statement is the one branch that this round takes. -/

namespace Sys2Proof.Machine

theorem reassemble_of_initial {ε : Type} (c : Config) {p0 : Packet} (h0 : isInitial p0 = true) (ps : List Packet) (fuel : Nat) :
    reassemble (ε := ε) c (listPeek (p0 :: ps)) fuel =
      reassembleFrom c (listPeek (p0 :: ps)) fuel (pktCid p0) (pktCmd p0) (pktBcnt p0) (pktData p0) :=
  if_pos h0

/-- The data field of an initial packet is full (R51, R76). -/
theorem pktData_length_of_initial {c : Config} {p0 : Packet} (h0 : isInitial p0 = true) (hl : p0.length = c.reportSize) :
    (pktData p0).length = c.initPayloadLength := by
  rw [pktData, if_pos h0, List.length_drop, hl, Config.initPayloadLength]

/-- The first packet's part, continued with the data of its continuations, is what they carry together (R103, R104). -/
theorem take_first_append_contData {c : Config} {p0 : Packet} (hd : (pktData p0).length = c.initPayloadLength) (ps : List Packet) :
    ((pktData p0).take (min (pktBcnt p0).toNat c.initPayloadLength) ++ contData ps).take (pktBcnt p0).toNat = carriedPayload p0 ps := by
  rw [← List.take_take, List.take_of_length_le hd.le, take_append_take]
  rfl

theorem carriedPayload_length {c : Config} {p0 : Packet} {ps : List Packet} (h0 : isInitial p0 = true)
    (hl : ∀ p ∈ p0 :: ps, p.length = c.reportSize) :
    (carriedPayload p0 ps).length = min (pktBcnt p0).toNat (c.initPayloadLength + ps.length * c.contPayloadLength) := by
  obtain ⟨hl0, hlps⟩ := List.forall_mem_cons.1 hl
  calc (carriedPayload p0 ps).length
      = ((pktData p0 ++ contData ps).take (pktBcnt p0).toNat).length := rfl
    _ = _ := by rw [List.length_take, List.length_append, pktData_length_of_initial h0 hl0, contData_length hlps]

/-- The loop goes on exactly as long as continuations are missing (R104). -/
theorem carriedPayload_length_lt_iff {c : Config} (hc : 8 ≤ c.reportSize) {p0 : Packet} {ps : List Packet} (h0 : isInitial p0 = true)
    (hl : ∀ p ∈ p0 :: ps, p.length = c.reportSize) :
    (carriedPayload p0 ps).length < (pktBcnt p0).toNat ↔ ps.length < ncont c (pktBcnt p0).toNat := by
  rw [lt_ncont_iff hc, carriedPayload_length h0 hl]
  omega

theorem carriedPayload_length_of_whole {c : Config} (hc : 8 ≤ c.reportSize) {p0 : Packet} {ps : List Packet} (h0 : isInitial p0 = true)
    (hl : ∀ p ∈ p0 :: ps, p.length = c.reportSize) (hwhole : ps.length = ncont c (pktBcnt p0).toNat) :
    (carriedPayload p0 ps).length = (pktBcnt p0).toNat := by
  have hle : (carriedPayload p0 ps).length ≤ (pktBcnt p0).toNat := List.length_take_le _ _
  have hnot : ¬ (carriedPayload p0 ps).length < (pktBcnt p0).toNat :=
    fun h => hwhole.not_lt ((carriedPayload_length_lt_iff hc h0 hl).1 h)
  omega

/-- Reassembly behind good continuations that are all needed, on a list: they are taken, and the loop stands at the first packet behind them. -/
theorem reassemble_run {ε : Type} {c : Config} (hc : 8 ≤ c.reportSize) {p0 : Packet} {ps rest : List Packet} (h0 : isInitial p0 = true)
    (hl : ∀ p ∈ p0 :: ps, p.length = c.reportSize) (hseq : inSequence 0 ps = true) (hneed : ps.length ≤ ncont c (pktBcnt p0).toNat) :
    reassemble (ε := ε) c (listPeek (p0 :: (ps ++ rest))) (p0 :: (ps ++ rest)).length =
      takeContinuations c (listPeek (p0 :: (ps ++ rest))) (pktCid p0) (pktCmd p0) (pktBcnt p0).toNat (rest.length + 1)
        (carriedPayload p0 ps) ps.length := by
  obtain ⟨hl0, hlps⟩ := List.forall_mem_cons.1 hl
  have hd := pktData_length_of_initial h0 hl0
  have hfuel : (p0 :: (ps ++ rest)).length - ps.length = rest.length + 1 := by
    rw [List.length_cons, List.length_append]
    omega
  rw [reassemble_of_initial c h0, reassembleFrom,
    takeContinuations_run (ps := ps) (rest := rest) (pktCid p0) (pktCmd p0) rfl hseq hlps
      (fun j hj => (carries_lt_iff hc hd _ j).2 (hj.trans_le hneed)) (by simp; omega) (by simp),
    take_first_append_contData hd, hfuel, Nat.zero_add]

/-- The packets of a queue's contents up to a point are packets of the block. -/
theorem Queue.Inv.length_of_first {c : Config} {q : Queue} (hq : q.Inv c) {p0 : Packet} {ps rest : List Packet}
    (hcont : contents c.queueLen q = p0 :: (ps ++ rest)) : ∀ p ∈ p0 :: ps, p.length = c.reportSize :=
  fun _ hp => hq.length_of_mem (hcont ▸ List.mem_append_left rest hp)

/-- `reassemble_run` on a queue: an attempt sees its contents and nothing else (R110). -/
theorem reassemble_queue_run {c : Config} (hc : c.wf) {q : Queue} (hq : q.Inv c) {p0 : Packet} {ps rest : List Packet}
    (hcont : contents c.queueLen q = p0 :: (ps ++ rest)) (h0 : isInitial p0 = true) (hseq : inSequence 0 ps = true)
    (hneed : ps.length ≤ ncont c (pktBcnt p0).toNat) :
    reassemble c (peekN c.queueLen q) q.len =
      takeContinuations c (listPeek (p0 :: (ps ++ rest))) (pktCid p0) (pktCmd p0) (pktBcnt p0).toNat (rest.length + 1)
        (carriedPayload p0 ps) ps.length := by
  rw [peekN_eq_listPeek hq.readable, ← contents_length hq.readable, hcont]
  exact reassemble_run (Config.wf.reportSize hc) h0 (hq.length_of_first hcont) hseq hneed

/-- Settles O14: the loop needs one more packet behind the good continuations, and the source has none. -/
theorem missingContinuationIsPending : Obligations.MissingContinuationIsPending := by
  intro c q p0 ps hc hq hcont h0 hseq hmissing
  rw [← List.append_nil ps] at hcont
  rw [reassemble_queue_run hc hq hcont h0 hseq hmissing.le]
  have hshort := (carriedPayload_length_lt_iff (Config.wf.reportSize hc) h0 (hq.length_of_first hcont)).2 hmissing
  exact takeContinuations_absent c _ _ _ _ hshort (by simp)

/-- Settles O15: the loop needs one more packet, and the one that stands there has a number that is not the count of those taken. -/
theorem wrongSequenceNumberIsAnError : Obligations.WrongSequenceNumberIsAnError := by
  intro c q p0 bad ps rest hc hq hcont h0 hseq hmissing _ hbad
  rw [reassemble_queue_run hc hq hcont h0 hseq hmissing.le]
  have hshort := (carriedPayload_length_lt_iff (Config.wf.reportSize hc) h0 (hq.length_of_first hcont)).2 hmissing
  have hnext : (p0 :: (ps ++ bad :: rest))[ps.length + 1]? = some bad := by simp
  exact takeContinuations_bad c _ _ _ _ hshort hnext (.inr hbad)

/-- Settles O17: behind the last continuation the payload has its declared length, so the loop ends without a look at the next packet. -/
theorem wholeMessageCompletes : Obligations.WholeMessageCompletes := by
  intro c q p0 ps rest hc hq hcont h0 hseq hwhole
  have hlen := carriedPayload_length_of_whole (Config.wf.reportSize hc) h0 (hq.length_of_first hcont) hwhole
  refine ⟨hlen, by rw [hwhole, npkts, Nat.add_comm], ?_⟩
  rw [reassemble_queue_run hc hq hcont h0 hseq hwhole.le]
  exact takeContinuations_done c _ _ _ _ _ hlen.ge

end Sys2Proof.Machine
end

section
/-! PROOFS. One reassembly attempt on a list of packets, said once (R100 to R111): the shapes that the packets can have, and what an attempt answers
to each. The statements about whole, interrupted, fragmented and relabelled messages are readings of it. -/

namespace Sys2Proof.Machine

/-- What an attempt answers, told by the shape of the packets it looks at (R101 to R108). -/
inductive Attempt (c : Config) : List Packet → Reassembly → Prop where
  | idle : Attempt c [] .idle
  | stray {p : Packet} (rest : List Packet) (hp : isContinuation p = true) :
      Attempt c (p :: rest) (.error .messageTimeout (pktCid p) 1)
  | whole {p0 : Packet} {ps : List Packet} (rest : List Packet) (h0 : isInitial p0 = true) (hseq : inSequence 0 ps = true)
      (hwhole : ps.length = ncont c (pktBcnt p0).toNat) :
      Attempt c (p0 :: (ps ++ rest)) (.complete ⟨pktCid p0, pktCmd p0, carriedPayload p0 ps⟩ (ps.length + 1))
  | pending {p0 : Packet} {ps : List Packet} (h0 : isInitial p0 = true) (hseq : inSequence 0 ps = true)
      (hmissing : ps.length < ncont c (pktBcnt p0).toNat) : Attempt c (p0 :: ps) .pending
  | broken {p0 bad : Packet} {ps : List Packet} (rest : List Packet) (h0 : isInitial p0 = true) (hseq : inSequence 0 ps = true)
      (hmissing : ps.length < ncont c (pktBcnt p0).toNat) (hbad : isInitial bad = true ∨ (pktSeq bad).toNat ≠ ps.length) :
      Attempt c (p0 :: (ps ++ bad :: rest)) (.error .invalidSequence (pktCid bad) (ps.length + 2))

/-- The answer is the reassembler's, on a source that is a list. -/
theorem Attempt.reassemble_eq {ε : Type} {c : Config} (hc : 8 ≤ c.reportSize) {src : List Packet} {r : Reassembly}
    (h : Attempt c src r) (hl : ∀ p ∈ src, p.length = c.reportSize) :
    reassemble (ε := ε) c (listPeek src) src.length = .ok r := by
  cases h with
  | idle => rfl
  | @stray p rest hp =>
    have h0 : isInitial p = false := by simpa [isContinuation] using hp
    simp [reassemble, listPeek, h0]
  | @whole p0 ps rest h0 hseq hwhole =>
    have hfirst : ∀ p ∈ p0 :: ps, p.length = c.reportSize := fun p hp => hl p (List.mem_append_left rest hp)
    rw [reassemble_run hc h0 hfirst hseq hwhole.le]
    exact takeContinuations_done c _ _ _ _ _ (carriedPayload_length_of_whole hc h0 hfirst hwhole).ge
  | @pending p0 ps h0 hseq hmissing =>
    have hrun := reassemble_run (ε := ε) (rest := []) hc h0 hl hseq hmissing.le
    rw [List.append_nil] at hrun
    rw [hrun]
    exact takeContinuations_absent c _ _ _ _ ((carriedPayload_length_lt_iff hc h0 hl).2 hmissing) (by simp)
  | @broken p0 bad ps rest h0 hseq hmissing hbad =>
    have hfirst : ∀ p ∈ p0 :: ps, p.length = c.reportSize := fun p hp => hl p (List.mem_append_left (bad :: rest) hp)
    rw [reassemble_run hc h0 hfirst hseq hmissing.le]
    exact takeContinuations_bad c _ _ _ _ ((carriedPayload_length_lt_iff hc h0 hfirst).2 hmissing) (by simp) hbad

/-- Every list of packets has one of the shapes: the continuations in order are taken as far as the message needs them. -/
theorem exists_attempt {c : Config} (hc : 8 ≤ c.reportSize) {src : List Packet} (hl : ∀ p ∈ src, p.length = c.reportSize) :
    ∃ r, Attempt c src r := by
  rcases src with _ | ⟨p0, src⟩
  · exact ⟨_, .idle⟩
  · rcases h0 : isInitial p0 with _ | _
    · exact ⟨_, .stray src (by rw [isContinuation, h0]; rfl)⟩
    · have hd := pktData_length_of_initial h0 (hl p0 List.mem_cons_self)
      obtain ⟨ps, rest, hsrc, hseq, _, hcases⟩ :=
        reassembleFrom_cases (ε := Fault) hc hl (pktCid p0) (pktCmd p0) (pktBcnt p0) hd
      obtain rfl : src = ps ++ rest := hsrc
      rcases hcases with ⟨hwhole, _⟩ | ⟨rfl, hmissing, _⟩ | ⟨bad, rest', rfl, hmissing, hbad, _⟩
      · exact ⟨_, .whole rest h0 hseq hwhole⟩
      · exact ⟨_, by rw [List.append_nil]; exact .pending h0 hseq hmissing⟩
      · exact ⟨_, .broken rest' h0 hseq hmissing hbad⟩

/-- The shapes exclude each other: what the reassembler answers tells the shape. -/
theorem attempt_of_reassemble_eq {ε : Type} {c : Config} (hc : 8 ≤ c.reportSize) {src : List Packet} {r : Reassembly}
    (hl : ∀ p ∈ src, p.length = c.reportSize) (h : reassemble (ε := ε) c (listPeek src) src.length = .ok r) :
    Attempt c src r := by
  obtain ⟨r', hr'⟩ := exists_attempt hc hl
  obtain rfl : r' = r := Except.ok.inj ((hr'.reassemble_eq hc hl).symm.trans h)
  exact hr'

theorem Attempt.eq_nil_of_idle {c : Config} {src : List Packet} (h : Attempt c src .idle) : src = [] := by
  cases h
  rfl

theorem Attempt.length_pos_of_pending {c : Config} {src : List Packet} (h : Attempt c src .pending) : 0 < src.length := by
  cases h
  exact Nat.succ_pos _

theorem Attempt.pos_of_complete {c : Config} {src : List Packet} {m : Message} {n : Nat} (h : Attempt c src (.complete m n)) :
    0 < n ∧ 0 < src.length := by
  cases h
  exact ⟨Nat.succ_pos _, Nat.succ_pos _⟩

theorem Attempt.pos_of_error {c : Config} {src : List Packet} {kind : ErrorKind} {bad : ChannelId} {n : Nat}
    (h : Attempt c src (.error kind bad n)) : 0 < n ∧ 0 < src.length := by
  cases h <;> exact ⟨Nat.succ_pos _, Nat.succ_pos _⟩

/-- `MessageTimeout` is the answer to a head that is not initial alone (R102). -/
theorem Attempt.kind_of_head_initial {c : Config} {src : List Packet} {kind : ErrorKind} {bad : ChannelId} {n : Nat}
    (h : Attempt c src (.error kind bad n)) (hhead : ∀ p, src.head? = some p → isInitial p = true) : kind = .invalidSequence := by
  cases h with
  | broken => rfl
  | stray rest hp => simp [isContinuation, hhead _ rfl] at hp

/-- An attempt on a queue sees its contents and nothing else (R110). -/
theorem reassemble_queue_eq {c : Config} {q : Queue} (hq : q.Inv c) :
    reassemble c (peekN c.queueLen q) q.len =
      reassemble c (listPeek (contents c.queueLen q)) (contents c.queueLen q).length := by
  rw [peekN_eq_listPeek hq.readable, contents_length hq.readable]

theorem Attempt.reassemble_queue {c : Config} (hc : c.wf) {q : Queue} (hq : q.Inv c) {r : Reassembly}
    (h : Attempt c (contents c.queueLen q) r) : reassemble c (peekN c.queueLen q) q.len = .ok r := by
  rw [reassemble_queue_eq hq]
  exact h.reassemble_eq (Config.wf.reportSize hc) fun _ => hq.length_of_mem

theorem attempt_of_reassemble_queue {c : Config} (hc : c.wf) {q : Queue} (hq : q.Inv c) {r : Reassembly}
    (h : reassemble c (peekN c.queueLen q) q.len = .ok r) : Attempt c (contents c.queueLen q) r := by
  rw [reassemble_queue_eq hq] at h
  exact attempt_of_reassemble_eq (Config.wf.reportSize hc) (fun _ => hq.length_of_mem) h

/-- The source of the round trip: the fragments of a message are a whole message, whatever stands behind them (R95). -/
theorem attempt_fragment {c : Config} (hc : 8 ≤ c.reportSize) {m : Message} (hm : m.bcnt ≤ c.maxPayload) (rest : List Packet) :
    Attempt c (fragment c m ++ rest) (.complete m (npkts c m.bcnt)) := by
  obtain ⟨h0, hcmd, hbcnt⟩ := fragmentHead_header hm
  have hwhole : (fragmentTail c m).length = ncont c (pktBcnt (fragmentHead c m)).toNat := by rw [hbcnt, fragmentTail_length]
  have hcid : pktCid (fragmentHead c m) = m.cid := pktCid_mkInitial ..
  have hpayload : carriedPayload (fragmentHead c m) (fragmentTail c m) = m.payload := by
    rw [carriedPayload, hbcnt]
    exact carried_fragment hc m
  have hcount : (fragmentTail c m).length + 1 = npkts c m.bcnt := by rw [fragmentTail_length, npkts, Nat.add_comm]
  have h := Attempt.whole rest h0 (inSequence_fragmentTail hc hm) hwhole
  rwa [hcid, hcmd, hpayload, hcount] at h

/-- What a message that completes looks like, and how long it can be (R108, R111). -/
theorem Attempt.complete_bounded {c : Config} (hc : 8 ≤ c.reportSize) {src : List Packet} (hl : ∀ p ∈ src, p.length = c.reportSize)
    {m : Message} {n : Nat} (h : Attempt c src (.complete m n)) :
    ∃ p0 ps rest, src = p0 :: (ps ++ rest) ∧ isInitial p0 = true ∧ inSequence 0 ps = true ∧
      m = ⟨pktCid p0, pktCmd p0, carriedPayload p0 ps⟩ ∧ m.bcnt = (pktBcnt p0).toNat ∧
      ps.length = ncont c m.bcnt ∧ n = ps.length + 1 := by
  cases h with
  | @whole p0 ps rest h0 hseq hwhole =>
    have hbcnt := carriedPayload_length_of_whole hc h0 (fun p hp => hl p (List.mem_append_left rest hp)) hwhole
    exact ⟨p0, ps, rest, rfl, h0, hseq, rfl, hbcnt, by rw [Message.bcnt, hbcnt, hwhole], rfl⟩

/-- A payload is no longer than its packets carry (R55). -/
theorem le_of_ncont {c : Config} (hc : 8 ≤ c.reportSize) (len : Nat) :
    len ≤ c.initPayloadLength + ncont c len * c.contPayloadLength :=
  Nat.not_lt.1 fun h => lt_irrefl _ ((lt_ncont_iff hc len (ncont c len)).2 h)

/-- A message from `n` packets of a queue is at most `MAX_REASM` long: the queue bounds its packets, the sequence numbers and the length field too
(R111). -/
theorem bcnt_le_maxReasm {c : Config} (hc : 8 ≤ c.reportSize) {len : Nat} (hlen : len < 65536) (hqueue : ncont c len + 1 ≤ c.queueLen)
    (hseq : ncont c len ≤ 128) : len ≤ c.maxReasm := by
  have hcarried := le_of_ncont hc len
  have hfit : ncont c len * c.contPayloadLength ≤ (c.queueLen - 1) * c.contPayloadLength := Nat.mul_le_mul_right _ (by omega)
  have hmax : ncont c len * c.contPayloadLength ≤ 128 * c.contPayloadLength := Nat.mul_le_mul_right _ hseq
  simp only [Config.maxReasm, Config.maxPayload, Config.maxMsg, Config.maxCont]
  omega

theorem maxReasm_le_maxPayload (c : Config) : c.maxReasm ≤ c.maxPayload := Nat.min_le_right _ _

/-- A message that completes from the contents of a queue is at most `MAX_REASM` long (R111). -/
theorem Attempt.bcnt_le {c : Config} (hc : c.wf) {q : Queue} (hq : q.Inv c) {m : Message} {n : Nat}
    (h : Attempt c (contents c.queueLen q) (.complete m n)) : m.bcnt ≤ c.maxReasm := by
  have hlen := contents_length hq.readable
  have hcap := hq.len_le
  obtain ⟨p0, ps, rest, hsrc, _, hseq, _, hbcnt, hps, _⟩ := h.complete_bounded (Config.wf.reportSize hc) fun _ => hq.length_of_mem
  rw [hsrc, List.length_cons, List.length_append] at hlen
  exact bcnt_le_maxReasm (Config.wf.reportSize hc) (hbcnt ▸ (pktBcnt p0).isLt) (by omega) (hps ▸ inSequence_length_le hseq)

/-- Settles O6: the fragments are a whole message with nothing behind it. -/
theorem reassembleUndoesFragment : Obligations.ReassembleUndoesFragment := by
  intro c m hc hm
  have h := attempt_fragment (Config.wf.reportSize hc) hm []
  rw [List.append_nil] at h
  exact h.reassemble_eq (Config.wf.reportSize hc) fun _ => length_of_mem_fragment (Config.wf.reportSize hc)

/-- Settles O7: the fragments are a whole message with the rest of the queue behind it. -/
theorem queuedMessageReassembles : Obligations.QueuedMessageReassembles := by
  intro c q m rest hc hq hm hcont
  exact Attempt.reassemble_queue hc hq (hcont ▸ attempt_fragment (Config.wf.reportSize hc) hm rest)

/-- Settles O12: an empty queue has the contents `[]`, so what fits is the first part of the list; then there are no more packets than slots. -/
theorem overfilledQueueKeepsTheFirst : Obligations.OverfilledQueueKeepsTheFirst := by
  intro cap q ps _ hempty
  have hread : q.Readable cap := fun n hn => absurd hn (by omega)
  have hlen := pushAll_len (q := q) (cap := cap) (by omega) ps
  refine ⟨?_, ?_, pushAll_head cap q ps, ?_⟩
  · rw [contents_pushAll hread (by omega), contents_of_empty hempty, List.nil_append]
  · rw [hlen, hempty, Nat.zero_add]
  · rw [popN_len]
    omega

/-- Settles O13: the two shapes that end an attempt at its first look. -/
theorem emptyQueueIsIdle : Obligations.EmptyQueueIsIdle := by
  intro c q hc hq
  exact ⟨fun hcont => Attempt.reassemble_queue hc hq (hcont ▸ .idle),
    fun p rest hcont hp => Attempt.reassemble_queue hc hq (hcont ▸ .stray rest hp)⟩

/-- Settles O16: a broken message whose offending packet is initial. -/
theorem interruptingInitialIsAnError : Obligations.InterruptingInitialIsAnError := by
  intro c q p0 bad ps rest hc hq hcont h0 hseq hmissing hbad
  exact Attempt.reassemble_queue hc hq (hcont ▸ .broken rest h0 hseq hmissing (.inl hbad))

/-- Settles O18: the packets of a message that completes are counted by its length, by the queue and by the sequence numbers. -/
theorem completedMessageIsBounded : Obligations.CompletedMessageIsBounded := by
  intro c q m n hc hq h
  have hattempt := attempt_of_reassemble_queue hc hq h
  have hlen := contents_length hq.readable
  obtain ⟨p0, ps, rest, hsrc, h0, hseq, hm, hbcnt, hps, hn⟩ :=
    hattempt.complete_bounded (Config.wf.reportSize hc) fun _ => hq.length_of_mem
  rw [hsrc, List.length_cons, List.length_append] at hlen
  exact ⟨by rw [hn, hps, npkts, Nat.add_comm], by omega, hattempt.bcnt_le hc hq, hps ▸ inSequence_length_le hseq,
    p0, ps, rest, hsrc, h0, hseq, hm, hbcnt⟩

/-- From byte 4 on two packets are the same: what the continuation loop looks at is the same (R106, R107). -/
theorem classified_of_drop_four {p q : Packet} (h : p.drop 4 = q.drop 4) :
    isContinuation p = isContinuation q ∧ pktSeq p = pktSeq q ∧ p.drop 5 = q.drop 5 := by
  have hbyte : byteAt p 4 = byteAt q 4 := by
    have := congrArg (·.getD 0 0) h
    simpa [byteAt, List.getD_eq_getElem?_getD] using this
  refine ⟨by rw [isContinuation, isContinuation, isInitial, isInitial, hbyte], by rw [pktSeq, pktSeq, hbyte], ?_⟩
  have := congrArg (List.drop 1) h
  simpa using this

/-- Continuations that agree from byte 4 on are in order together and carry the same (R104). -/
theorem inSequence_and_contData_of_drop_four {ps qs : List Packet} (h : ps.map (List.drop 4) = qs.map (List.drop 4)) (k : Nat) :
    inSequence k ps = inSequence k qs ∧ contData ps = contData qs := by
  induction ps generalizing qs k with
  | nil =>
    obtain rfl : qs = [] := by simpa using h.symm
    exact ⟨rfl, rfl⟩
  | cons p ps ih =>
    obtain ⟨q, qs, rfl⟩ : ∃ q qs', qs = q :: qs' := by
      cases qs with
      | nil => simp at h
      | cons q qs => exact ⟨q, qs, rfl⟩
    rw [List.map_cons, List.map_cons, List.cons.injEq] at h
    obtain ⟨hcont, hnum, hdata⟩ := classified_of_drop_four h.1
    obtain ⟨hseq, hrest⟩ := ih h.2 (k + 1)
    constructor
    · rw [inSequence, inSequence, hcont, hnum, hseq]
    · simp only [contData, List.map_cons, List.flatten_cons, hdata]
      exact congrArg _ hrest

/-- Settles O19: the packets of the message are found again under the other channel ids, in order, carrying the same. -/
theorem continuationChannelIsNotCompared : Obligations.ContinuationChannelIsNotCompared := by
  intro c p0 ps qs m n hc hl hmap hlq h
  have hc8 := Config.wf.reportSize hc
  have hattempt := attempt_of_reassemble_eq hc8 hl h
  obtain ⟨p0', ps1, rest, hsrc, h0, hseq, rfl, hbcnt, hps, rfl⟩ := hattempt.complete_bounded hc8 hl
  rw [List.cons.injEq] at hsrc
  obtain ⟨rfl, rfl⟩ := hsrc
  obtain ⟨qs1, qrest, rfl, hmap1, _⟩ := List.map_eq_append_iff.1 (hmap.symm.trans List.map_append)
  obtain ⟨hseq', hdata⟩ := inSequence_and_contData_of_drop_four hmap1.symm 0
  have hlen : ps1.length = qs1.length := by simpa using congrArg List.length hmap1.symm
  have hpayload : carriedPayload p0 ps1 = carriedPayload p0 qs1 := by
    change (pktData p0 ++ contData ps1).take _ = (pktData p0 ++ contData qs1).take _
    rw [hdata]
  have hwhole : Attempt c (p0 :: (qs1 ++ qrest)) _ :=
    .whole qrest h0 (hseq' ▸ hseq) (by rw [← hlen, hps, hbcnt])
  rw [← hpayload, ← hlen] at hwhole
  exact hwhole.reassemble_eq hc8 (List.forall_mem_cons.2 ⟨hl p0 List.mem_cons_self, hlq⟩)

end Sys2Proof.Machine
end

section
/-! PROOFS. The decoder undoes the encoder, row by row (30_encoding.md): a packet row is read back from its fields; every other row is a message, which
the reassembler gives back from its fragments, and a message tells its row. -/

namespace Sys2Proof.Machine

/-- The message decoder undoes the fragmenter (R95). -/
theorem decodeMessage_fragment {c : Config} (hc : 8 ≤ c.reportSize) {m : Message} (hm : m.bcnt ≤ c.maxPayload) :
    decodeMessage c (fragment c m).flatten = .ok m := by
  have hl : ∀ p ∈ fragment c m, p.length = c.reportSize := fun _ => length_of_mem_fragment hc
  have hwhole := (attempt_fragment hc hm []).reassemble_eq (ε := DecodeError) hc (by simpa using hl)
  rw [List.append_nil] at hwhole
  have hlist : reassembleList c (fragment c m) = .ok (.complete m (npkts c m.bcnt)) := hwhole
  rw [decodeMessage_flatten hc hl]
  simp [messageOf, hlist]

theorem decode_message_fragment {c : Config} (hc : 8 ≤ c.reportSize) {m : Message} (hm : m.bcnt ≤ c.maxPayload) :
    decode c .message (fragment c m).flatten = .ok (commandOf c m) := by
  simp [decode, decodeMessage_fragment hc hm, Except.map]

theorem decode_emitted_fragment {c : Config} (hc : 8 ≤ c.reportSize) {m : Message} (hm : m.bcnt ≤ c.maxPayload) :
    decode c .emitted (fragment c m).flatten = responseOf c m := by
  simp [decode, decodeMessage_fragment hc hm, Except.bind]

theorem decode_errorByte_fragment {c : Config} (hc : 8 ≤ c.reportSize) {m : Message} (hm : m.bcnt ≤ c.maxPayload) :
    decode c .errorByte (fragment c m).flatten = (responseOf c m).bind errorRowOf := by
  simp [decode, decodeMessage_fragment hc hm, Except.bind]

theorem commandOf_init (c : Config) (cid : ChannelId) (payload : List Byte) :
    commandOf c ⟨cid, c.cmdInit, payload⟩ = .cmdInit cid payload := if_pos rfl

theorem commandOf_ping {c : Config} (hc : c.wf) (cid : ChannelId) (payload : List Byte) :
    commandOf c ⟨cid, c.cmdPing, payload⟩ = .cmdPing cid payload := by
  obtain ⟨_, _, _, hinit, _⟩ := hc
  simp [commandOf, hinit.symm]

theorem commandOf_other {c : Config} {cmd : BitVec 7} (hinit : cmd ≠ c.cmdInit) (hping : cmd ≠ c.cmdPing) (cid : ChannelId)
    (payload : List Byte) : commandOf c ⟨cid, cmd, payload⟩ = .cmdOther cid cmd payload := by
  simp [commandOf, hinit, hping]

/-- The fields of the INIT response stand at their places (R59). -/
theorem initResponsePayload_fields {c : Config} {nonce : List Byte} (h : nonce.length = 8) (v : BitVec 32) :
    (initResponsePayload c nonce v).take 8 = nonce ∧
    dec32 c.cidByteOrder ((initResponsePayload c nonce v).getD 8 0) ((initResponsePayload c nonce v).getD 9 0)
      ((initResponsePayload c nonce v).getD 10 0) ((initResponsePayload c nonce v).getD 11 0) = v := by
  have hassoc : initResponsePayload c nonce v = nonce ++ (enc32 c.cidByteOrder v ++
      [c.protocolVersion, c.deviceVersion.1, c.deviceVersion.2.1, c.deviceVersion.2.2, c.capabilities]) := List.append_assoc ..
  have hbyte : ∀ i < 4, (initResponsePayload c nonce v).getD (8 + i) 0 = (enc32 c.cidByteOrder v).getD i 0 := by
    intro i hi
    rw [hassoc, List.getD_append_right _ _ _ _ (by omega), h, Nat.add_sub_cancel_left, List.getD_append _ _ _ _ (by simpa using hi)]
  constructor
  · rw [hassoc, ← h, List.take_left]
  · rw [hbyte 0 (by omega), hbyte 1 (by omega), hbyte 2 (by omega), hbyte 3 (by omega), dec32_enc32]

theorem responseOf_init {c : Config} {nonce : List Byte} {v : BitVec 32} (hnonce : nonce.length = 8) (h0 : v ≠ 0)
    (hbroadcast : v ≠ 0xFFFFFFFF) (cid : ChannelId) :
    responseOf c (initResponse c cid nonce v) = .ok (.rspInit cid nonce v) := by
  obtain ⟨htake, hid⟩ := initResponsePayload_fields (c := c) hnonce v
  simp only [responseOf, initResponse, initResponseOf, htake, hid, initResponsePayload_length c hnonce, if_true]
  exact if_pos ⟨trivial, trivial, h0, hbroadcast⟩

theorem responseOf_ping {c : Config} (hc : c.wf) (cid : ChannelId) (payload : List Byte) :
    responseOf c (pingResponse c cid payload) = .ok (.rspPing cid payload) := by
  obtain ⟨_, _, _, hinit, _⟩ := hc
  simp [responseOf, pingResponse, hinit.symm]

theorem responseOf_error {c : Config} (hc : c.wf) (cid : ChannelId) (kind : ErrorKind) :
    responseOf c (errorMsg c cid kind) = .ok (.rspError cid kind) := by
  have hkind := kindOf_errorCode hc kind
  obtain ⟨_, _, _, _, hinit, hping, _⟩ := hc
  simp [responseOf, errorMsg, errorResponseOf, hinit.symm, hping.symm, hkind]

/-- An ERR row is told by the ERROR message it stands in (R62). -/
theorem decode_errorRow {c : Config} (hc : c.wf) (cid : ChannelId) (kind : ErrorKind) :
    decode c .errorByte (fragment c (errorMsg c cid kind)).flatten = .ok (errorInstr kind cid) := by
  rw [decode_errorByte_fragment (Config.wf.reportSize hc) (Laws.fits_of_le_seventeen hc (by simp)), responseOf_error hc]
  rfl

/-- PKT.INITIAL: a full data field leaves no room for padding (R54). -/
theorem decodePacket_mkInitial {c : Config} {data : List Byte} (hd : data.length = c.initPayloadLength) (cid : ChannelId)
    (cmd : BitVec 7) (bcnt : BitVec 16) : decodePacket (mkInitial c cid cmd bcnt.toNat data) = .pktInitial cid cmd bcnt data := by
  have hbcnt : pktBcnt (mkInitial c cid cmd bcnt.toNat data) = bcnt :=
    BitVec.eq_of_toNat_eq (pktBcnt_mkInitial c cid cmd bcnt.isLt data)
  simp [decodePacket, hbcnt, pktData_mkInitial, hd, zeros]

/-- PKT.CONT: a sequence number is below 128, so bit 7 is clear (R54). -/
theorem decodePacket_mkCont {c : Config} {data : List Byte} (hd : data.length = c.contPayloadLength) (cid : ChannelId)
    (seq : BitVec 7) : decodePacket (mkCont c cid seq.toNat data) = .pktCont cid seq data := by
  have hseq : pktSeq (mkCont c cid seq.toNat data) = seq := BitVec.eq_of_toNat_eq (pktSeq_mkCont c cid seq.isLt data)
  simp [decodePacket, isInitial_mkCont c cid seq.isLt, hseq, pktData_mkCont c cid seq.isLt, hd, zeros]

/-- Settles O4, by the rows of the opcode table. -/
theorem decodeOfEncodeIsTheInstruction : Obligations.DecodeOfEncodeIsTheInstruction := by
  intro c i hc hi
  have hc8 := Config.wf.reportSize hc
  cases i with
  | pktInitial cid cmd bcnt data =>
    have hd : data.length = c.initPayloadLength := of_decide_eq_true hi
    have henc : encode c (.pktInitial cid cmd bcnt data) = mkInitial c cid cmd bcnt.toNat data := List.append_nil _
    rw [henc, Instr.place, decode_packet (mkInitial_length hc8 _ _ _ hd.le), decodePacket_mkInitial hd]
  | pktCont cid seq data =>
    have hd : data.length = c.contPayloadLength := of_decide_eq_true hi
    have henc : encode c (.pktCont cid seq data) = mkCont c cid seq.toNat data := List.append_nil _
    rw [henc, Instr.place, decode_packet (mkCont_length hc8 _ _ hd.le), decodePacket_mkCont hd]
  | cmdInit cid payload =>
    have hfits : payload.length ≤ c.maxPayload := of_decide_eq_true hi
    exact (decode_message_fragment hc8 (m := ⟨cid, c.cmdInit, payload⟩) hfits).trans (congrArg _ (commandOf_init c cid payload))
  | cmdPing cid payload =>
    have hfits : payload.length ≤ c.maxPayload := of_decide_eq_true hi
    exact (decode_message_fragment hc8 (m := ⟨cid, c.cmdPing, payload⟩) hfits).trans (congrArg _ (commandOf_ping hc cid payload))
  | cmdOther cid cmd payload =>
    simp only [Instr.wf, Bool.and_eq_true, decide_eq_true_eq, payloadFits] at hi
    obtain ⟨⟨hinit, hping⟩, hfits⟩ := hi
    exact (decode_message_fragment hc8 (m := ⟨cid, cmd, payload⟩) hfits).trans
      (congrArg _ (commandOf_other hinit hping cid payload))
  | rspInit cid nonce newCid =>
    simp only [Instr.wf, Bool.and_eq_true, decide_eq_true_eq] at hi
    obtain ⟨⟨hnonce, h0⟩, hbroadcast⟩ := hi
    have hfits : (initResponse c cid nonce newCid).bcnt ≤ c.maxPayload :=
      Laws.fits_of_le_seventeen hc (initResponsePayload_length c hnonce newCid).le
    exact (decode_emitted_fragment hc8 hfits).trans (responseOf_init hnonce h0 hbroadcast cid)
  | rspPing cid payload =>
    have hfits : (pingResponse c cid payload).bcnt ≤ c.maxPayload := of_decide_eq_true hi
    exact (decode_emitted_fragment hc8 hfits).trans (responseOf_ping hc cid payload)
  | rspError cid kind =>
    exact (decode_emitted_fragment hc8 (Laws.fits_of_le_seventeen hc (by simp))).trans (responseOf_error hc cid kind)
  | errInvalidCmd cid => exact decode_errorRow hc cid .invalidCommand
  | errInvalidSeq cid => exact decode_errorRow hc cid .invalidSequence
  | errMsgTimeout cid => exact decode_errorRow hc cid .messageTimeout

end Sys2Proof.Machine
end

section
/-! PROOFS. Rules of the state that the statements about instructions and events share: packets queued into OUTQ as one update, the invariant part by
part and the updates that keep it, and the state once its event is drawn. -/

namespace Sys2Proof.Machine

/-- `s` with packets pushed into OUTQ in order, which is all that emission does (R94). -/
def State.queued (s : State) (ps : List Packet) : State := s.withOutq (pushAll s.config.queueLen s.outq ps)

theorem emit_eq_queued {m : Message} {s : State} (h : m.bcnt ≤ s.config.maxPayload) :
    emit m s = .next (s.queued (fragment s.config m)) := emit_of_fits h

@[simp] theorem queued_config (s : State) (ps : List Packet) : (s.queued ps).config = s.config := rfl
@[simp] theorem queued_inq (s : State) (ps : List Packet) : (s.queued ps).inq = s.inq := rfl
@[simp] theorem queued_outq (s : State) (ps : List Packet) : (s.queued ps).outq = pushAll s.config.queueLen s.outq ps := rfl
@[simp] theorem queued_chanCounter (s : State) (ps : List Packet) : (s.queued ps).chanCounter = s.chanCounter := rfl
@[simp] theorem queued_tickDiv (s : State) (ps : List Packet) : (s.queued ps).tickDiv = s.tickDiv := rfl
@[simp] theorem queued_connState (s : State) (ps : List Packet) : (s.queued ps).connState = s.connState := rfl
@[simp] theorem queued_idleTicks (s : State) (ps : List Packet) : (s.queued ps).idleTicks = s.idleTicks := rfl
@[simp] theorem queued_fault (s : State) (ps : List Packet) : (s.queued ps).fault = s.fault := rfl
@[simp] theorem queued_pending (s : State) (ps : List Packet) : (s.queued ps).pending = s.pending := rfl
@[simp] theorem queued_freeIndex (s : State) (ps : List Packet) : (s.queued ps).freeIndex = s.freeIndex := rfl
@[simp] theorem queued_outputs (s : State) (ps : List Packet) : (s.queued ps).outputs = s.outputs := rfl

section
variable {s : State}

theorem State.Inv.wf (h : s.Inv) : s.config.wf := h.1
theorem State.Inv.reportSize (h : s.Inv) : 8 ≤ s.config.reportSize := Config.wf.reportSize h.wf
theorem State.Inv.inq (h : s.Inv) : s.inq.Inv s.config := let ⟨_, hinq, _⟩ := h; hinq
theorem State.Inv.outq (h : s.Inv) : s.outq.Inv s.config := let ⟨_, _, houtq, _⟩ := h; houtq
theorem State.Inv.chanCounter (h : s.Inv) : s.chanCounter ≠ 0 := let ⟨_, _, _, hcounter, _⟩ := h; hcounter
theorem State.Inv.tickDiv (h : s.Inv) : s.tickDiv < s.config.tickDivider := let ⟨_, _, _, _, htick, _⟩ := h; htick
theorem State.Inv.idleTicks (h : s.Inv) : s.idleTicks ≤ s.config.idleTickBudget.getD 0 :=
  let ⟨_, _, _, _, _, hidle⟩ := h; hidle

theorem State.Inv.length_inContents (h : s.Inv) : s.inContents.length = s.inq.len := contents_length h.inq.readable

theorem State.Inv.length_outContents (h : s.Inv) : s.outContents.length = s.outq.len := contents_length h.outq.readable

/-- The packets in INQ are packets of the block. -/
theorem State.Inv.length_of_mem_inContents (h : s.Inv) : ∀ p ∈ s.inContents, p.length = s.config.reportSize :=
  fun _ => h.inq.length_of_mem

/-! What the updates keep: the invariant does not speak of the fault, the connection state, the events and the outputs. -/

theorem State.Inv.withInq (h : s.Inv) {q : Queue} (hq : q.Inv s.config) : (s.withInq q).Inv :=
  ⟨h.wf, hq, h.outq, h.chanCounter, h.tickDiv, h.idleTicks⟩

theorem State.Inv.withOutq (h : s.Inv) {q : Queue} (hq : q.Inv s.config) : (s.withOutq q).Inv :=
  ⟨h.wf, h.inq, hq, h.chanCounter, h.tickDiv, h.idleTicks⟩

theorem State.Inv.withChanCounter (h : s.Inv) {v : BitVec 32} (hv : v ≠ 0) : (s.withChanCounter v).Inv :=
  ⟨h.wf, h.inq, h.outq, hv, h.tickDiv, h.idleTicks⟩

theorem State.Inv.withTickDiv (h : s.Inv) {n : Nat} (hn : n < s.config.tickDivider) : (s.withTickDiv n).Inv :=
  ⟨h.wf, h.inq, h.outq, h.chanCounter, hn, h.idleTicks⟩

theorem State.Inv.withIdleTicks (h : s.Inv) {n : Nat} (hn : n ≤ s.config.idleTickBudget.getD 0) : (s.withIdleTicks n).Inv :=
  ⟨h.wf, h.inq, h.outq, h.chanCounter, h.tickDiv, hn⟩

theorem State.Inv.withFault (h : s.Inv) (f : Option FaultReason) : (s.withFault f).Inv := h
theorem State.Inv.withConnState (h : s.Inv) (c : ConnState) : (s.withConnState c).Inv := h
theorem State.Inv.output (h : s.Inv) (o : Output) : (s.output o).Inv := h
theorem State.Inv.withPending (h : s.Inv) (es : List Event) : (s.withPending es).Inv := h
theorem State.Inv.withFreeIndex (h : s.Inv) (n : Nat) : (s.withFreeIndex n).Inv := h

theorem State.Inv.errorStatus (h : s.Inv) (kind : ErrorKind) : (errorStatus kind s).Inv := by
  cases kind with
  | invalidCommand => exact h
  | invalidSequence => exact h.output _
  | messageTimeout => exact h.output _

theorem State.Inv.queued (h : s.Inv) {ps : List Packet} (hps : ∀ p ∈ ps, p.length = s.config.reportSize) : (s.queued ps).Inv :=
  h.withOutq (h.outq.pushAll hps)

/-- `idle_ticks` stays or becomes 0. -/
theorem idleCleared_le (s : State) : idleCleared s ≤ s.idleTicks := by
  unfold idleCleared
  split <;> omega

theorem State.Inv.retire (h : s.Inv) (n : Nat) : (retire n s).Inv := by
  rw [retire_eq]
  exact (h.withInq (h.inq.popN n)).withIdleTicks ((idleCleared_le s).trans h.idleTicks)

/-- The counter below its last value goes one up without a wrap, so it does not become 0 (R123). -/
theorem toNat_succ_of_ne {v : BitVec 32} (h : v ≠ 0xFFFFFFFF) : (v + 1).toNat = v.toNat + 1 := by bv_omega

theorem succ_ne_zero_of_ne {v : BitVec 32} (h : v ≠ 0xFFFFFFFF) : v + 1 ≠ 0 := by bv_omega

/-- What is queued into OUTQ, all of it. -/
theorem State.Inv.queuedInto (h : s.Inv) (ps : List Packet) : QueuedInto s.config.queueLen s.outq (s.queued ps).outq ps :=
  queuedInto_pushAll h.outq.readable h.outq.len_le ps

theorem State.Inv.outContents_queued (h : s.Inv) (ps : List Packet) :
    (s.queued ps).outContents = (s.outContents ++ ps).take s.config.queueLen :=
  contents_pushAll h.outq.readable h.outq.len_le ps

theorem State.Inv.inContents_retire (h : s.Inv) (n : Nat) : (Machine.retire n s).inContents = s.inContents.drop n := by
  rw [State.inContents, retire_config, retire_inq, contents_popN h.inq.readable]
  rfl

theorem State.Inv.retire_shorter (h : s.Inv) {n : Nat} (hn : 0 < n) (hpos : 0 < s.inContents.length) :
    (Machine.retire n s).inq.len < s.inq.len := by
  rw [h.length_inContents] at hpos
  rw [retire_inq, popN_len]
  omega

/-- Retiring every packet empties INQ (R151). -/
theorem State.Inv.inContents_retire_all (h : s.Inv) : (Machine.retire s.inq.len s).inContents = [] := by
  rw [h.inContents_retire, ← h.length_inContents, List.drop_length]

end

/-! The contents of the queues are told by the queues and the parameters. -/

theorem inContents_congr {s t : State} (hc : s.config = t.config) (hq : s.inq = t.inq) : s.inContents = t.inContents := by
  rw [State.inContents, State.inContents, hc, hq]

theorem outContents_congr {s t : State} (hc : s.config = t.config) (hq : s.outq = t.outq) : s.outContents = t.outContents := by
  rw [State.outContents, State.outContents, hc, hq]

@[simp] theorem retire_outContents (n : Nat) (s : State) : (retire n s).outContents = s.outContents :=
  outContents_congr (retire_config n s) (retire_outq n s)

@[simp] theorem queued_inContents (s : State) (ps : List Packet) : (s.queued ps).inContents = s.inContents := rfl

@[simp] theorem errorStatus_inContents (kind : ErrorKind) (s : State) : (errorStatus kind s).inContents = s.inContents :=
  inContents_congr (errorStatus_config kind s) (errorStatus_inq kind s)

@[simp] theorem errorStatus_outContents (kind : ErrorKind) (s : State) : (errorStatus kind s).outContents = s.outContents :=
  outContents_congr (errorStatus_config kind s) (errorStatus_outq kind s)

/-! Drawing the event touches the outside world's fields alone (R153). -/

/-- The next event, and the state once it is drawn, by what the outside world is set to issue. -/
theorem drawEvent_cases (s : State) :
    (∃ e es, s.pending = e :: es ∧ nextEvent s = e ∧ drawEvent s = s.withPending es) ∨
    (s.pending = [] ∧ nextEvent s = Config.freeEvent s.freeIndex ∧ drawEvent s = s.withFreeIndex (s.freeIndex + 1)) := by
  unfold nextEvent drawEvent
  cases h : s.pending with
  | nil => exact .inr ⟨rfl, rfl, rfl⟩
  | cons e es => exact .inl ⟨e, es, rfl, rfl, rfl⟩

/-- The drawn state is the state but for the two fields. -/
theorem drawEvent_eq (s : State) : ∃ es n, drawEvent s = (s.withPending es).withFreeIndex n := by
  rcases drawEvent_cases s with ⟨_, es, _, _, h⟩ | ⟨_, _, h⟩
  · exact ⟨es, s.freeIndex, h⟩
  · exact ⟨s.pending, s.freeIndex + 1, h⟩

@[simp] theorem drawEvent_config (s : State) : (drawEvent s).config = s.config := by
  obtain ⟨es, n, h⟩ := drawEvent_eq s; simp [h]
@[simp] theorem drawEvent_inq (s : State) : (drawEvent s).inq = s.inq := by
  obtain ⟨es, n, h⟩ := drawEvent_eq s; simp [h]
@[simp] theorem drawEvent_outq (s : State) : (drawEvent s).outq = s.outq := by
  obtain ⟨es, n, h⟩ := drawEvent_eq s; simp [h]
@[simp] theorem drawEvent_chanCounter (s : State) : (drawEvent s).chanCounter = s.chanCounter := by
  obtain ⟨es, n, h⟩ := drawEvent_eq s; simp [h]
@[simp] theorem drawEvent_connState (s : State) : (drawEvent s).connState = s.connState := by
  obtain ⟨es, n, h⟩ := drawEvent_eq s; simp [h]
@[simp] theorem drawEvent_fault (s : State) : (drawEvent s).fault = s.fault := by
  obtain ⟨es, n, h⟩ := drawEvent_eq s; simp [h]
@[simp] theorem drawEvent_outputs (s : State) : (drawEvent s).outputs = s.outputs := by
  obtain ⟨es, n, h⟩ := drawEvent_eq s; simp [h]

@[simp] theorem gateOpen_drawEvent (s : State) : gateOpen (drawEvent s) = gateOpen s := gateOpen_congr (by simp) (by simp)

@[simp] theorem drawEvent_inContents (s : State) : (drawEvent s).inContents = s.inContents := inContents_congr (by simp) (by simp)

theorem State.Inv.drawEvent {s : State} (h : s.Inv) : (drawEvent s).Inv := by
  obtain ⟨es, n, hd⟩ := drawEvent_eq s
  rw [hd]
  exact (h.withPending es).withFreeIndex n

end Sys2Proof.Machine
end

section
/-! PROOFS. The instructions behind the gate, each as one equation: the RSP and ERR rows queue one message, the CMD rows go on with one of them
(R120 to R127, R163), the PKT rows retire packets and go on with what the attempt asks for (R147 to R151). -/

namespace Sys2Proof.Machine

/-- Settles O20: every meaning stands behind the gate. -/
theorem closedGateStopsEveryInstruction : Obligations.ClosedGateStopsEveryInstruction := by
  intro i s h
  cases i <;> exact whenOpen_of_closed h _

/-- The one packet of an ERROR message (R60). -/
def errorPacket (c : Config) (cid : ChannelId) (kind : ErrorKind) : Packet := mkInitial c cid c.cmdError 1 [errorCode c kind]

theorem ncont_eq_zero {c : Config} {len : Nat} (h : len ≤ c.initPayloadLength) : ncont c len = 0 := if_pos h

/-- A payload that fits the initial packet needs no other (R92). -/
theorem fragment_of_short {c : Config} {m : Message} (h : m.bcnt ≤ c.initPayloadLength) :
    fragment c m = [mkInitial c m.cid m.cmd m.bcnt m.payload] := by
  have htail : fragmentTail c m = [] := by simp [fragmentTail, ncont_eq_zero h]
  rw [fragment_eq, htail, fragmentHead, List.take_of_length_le h]

theorem fragment_errorMsg {c : Config} (hc : 8 ≤ c.reportSize) (cid : ChannelId) (kind : ErrorKind) :
    fragment c (errorMsg c cid kind) = [errorPacket c cid kind] :=
  fragment_of_short (initPayloadLength_pos hc)

section
variable {s : State}

/-! ## RSP and ERR rows -/

theorem exec_rspInit (hs : s.Inv) (hg : gateOpen s = true) (cid : ChannelId) {nonce : List Byte} (hn : nonce.length = 8)
    (v : BitVec 32) : exec (.rspInit cid nonce v) s = .next (s.queued (fragment s.config (initResponse s.config cid nonce v))) :=
  (whenOpen_of_open hg _).trans
    (emit_eq_queued (Laws.fits_of_le_seventeen hs.wf (initResponsePayload_length s.config hn v).le))

theorem exec_rspPing (hg : gateOpen s = true) (cid : ChannelId) {payload : List Byte} (hp : payload.length ≤ s.config.maxPayload) :
    exec (.rspPing cid payload) s = .next (s.queued (fragment s.config (pingResponse s.config cid payload))) :=
  (whenOpen_of_open hg _).trans (emit_eq_queued hp)

/-- A payload over the ceiling has no fragments (R91). -/
theorem exec_rspPing_of_long (hg : gateOpen s = true) (cid : ChannelId) {payload : List Byte}
    (hp : s.config.maxPayload < payload.length) : exec (.rspPing cid payload) s = .refused .messageTooLong :=
  (whenOpen_of_open hg _).trans (if_neg hp.not_ge)

theorem exec_rspError (hs : s.Inv) (hg : gateOpen s = true) (cid : ChannelId) (kind : ErrorKind) :
    exec (.rspError cid kind) s = .next (s.queued [errorPacket s.config cid kind]) := by
  rw [← fragment_errorMsg hs.reportSize]
  exact (whenOpen_of_open hg _).trans (emit_errorMsg hs.reportSize cid kind)

/-- Taking a protocol error, one operation for the three ERR rows (R163). -/
theorem exec_errorInstr (hs : s.Inv) (hg : gateOpen s = true) (kind : ErrorKind) (cid : ChannelId) :
    exec (errorInstr kind cid) s = .next (errorStatus kind (s.queued [errorPacket s.config cid kind])) := by
  have hraise : exec (errorInstr kind cid) s = raiseError kind cid s := by cases kind <;> rfl
  rw [hraise, raiseError_eq, whenOpen_of_open hg, takeError_eq hs.reportSize, fragment_errorMsg hs.reportSize]
  rfl

/-! ## CMD rows -/

theorem exec_cmdInit_of_short (hg : gateOpen s = true) (cid : ChannelId) {payload : List Byte} (h : payload.length < 8) :
    exec (.cmdInit cid payload) s = exec (.errInvalidCmd cid) s := by
  have hshort : isShortInit payload = true := decide_eq_true h
  exact (whenOpen_of_open hg _).trans (if_pos hshort)

/-- Behind the length check CMD.INIT asks the allocator (R121). -/
theorem exec_cmdInit_of_long (hg : gateOpen s = true) (cid : ChannelId) {payload : List Byte} (h : 8 ≤ payload.length) :
    exec (.cmdInit cid payload) s =
      match allocChannel s with
      | none => .next (raiseExhausted s)
      | some (v, t) => exec (.rspInit cid (payload.take 8) v) t := by
  have hlong : isShortInit payload = false := decide_eq_false h.not_gt
  refine ((whenOpen_of_open hg _).trans (if_neg (by simp [hlong]))).trans ?_
  cases allocChannel s <;> rfl

theorem exec_cmdInit_of_exhausted (hg : gateOpen s = true) (cid : ChannelId) {payload : List Byte} (h : 8 ≤ payload.length)
    (hx : s.chanCounter = 0xFFFFFFFF) : exec (.cmdInit cid payload) s = .next (s.withFault (some .channelSpaceExhausted)) := by
  have hnone : allocChannel s = none := if_pos hx
  rw [exec_cmdInit_of_long hg cid h, hnone]
  rfl

theorem exec_cmdInit_of_served (hs : s.Inv) (hg : gateOpen s = true) (cid : ChannelId) {payload : List Byte} (h : 8 ≤ payload.length)
    (hx : s.chanCounter ≠ 0xFFFFFFFF) :
    exec (.cmdInit cid payload) s = .next ((s.withChanCounter (s.chanCounter + 1)).queued
      (fragment s.config (initResponse s.config cid (payload.take 8) s.chanCounter))) := by
  have hsome : allocChannel s = some (s.chanCounter, s.withChanCounter (s.chanCounter + 1)) := if_neg hx
  have hopen : gateOpen (s.withChanCounter (s.chanCounter + 1)) = true := hg
  have hnonce : (payload.take 8).length = 8 := by rw [List.length_take]; omega
  rw [exec_cmdInit_of_long hg cid h, hsome]
  exact exec_rspInit (hs.withChanCounter (succ_ne_zero_of_ne hx)) hopen cid hnonce s.chanCounter

theorem exec_cmdPing (hg : gateOpen s = true) (cid : ChannelId) (payload : List Byte) :
    exec (.cmdPing cid payload) s = exec (.rspPing cid payload) s := whenOpen_of_open hg _

theorem exec_cmdOther (hg : gateOpen s = true) (cid : ChannelId) (cmd : BitVec 7) (payload : List Byte) :
    exec (.cmdOther cid cmd payload) s = exec (.errInvalidCmd cid) s := whenOpen_of_open hg _

theorem dispatch_eq_exec (m : Message) (s : State) : dispatch m s = exec (commandOf s.config m) s := by
  unfold dispatch commandOf
  split
  · rfl
  · split <;> rfl

/-- The one answer that a completed message gets (R120): an error, the fault, a channel, or its echo. -/
inductive Dispatched (m : Message) (s : State) : State → Prop where
  | rejected (hping : m.cmd ≠ s.config.cmdPing) (hshort : m.cmd = s.config.cmdInit → m.bcnt < 8) :
      Dispatched m s (s.queued [errorPacket s.config m.cid .invalidCommand])
  | exhausted (hcmd : m.cmd = s.config.cmdInit) (hlong : 8 ≤ m.bcnt) (hx : s.chanCounter = 0xFFFFFFFF) :
      Dispatched m s (s.withFault (some .channelSpaceExhausted))
  | served (hcmd : m.cmd = s.config.cmdInit) (hlong : 8 ≤ m.bcnt) (hx : s.chanCounter ≠ 0xFFFFFFFF) :
      Dispatched m s ((s.withChanCounter (s.chanCounter + 1)).queued
        (fragment s.config (initResponse s.config m.cid (m.payload.take 8) s.chanCounter)))
  | echoed (hcmd : m.cmd = s.config.cmdPing) :
      Dispatched m s (s.queued (fragment s.config (pingResponse s.config m.cid m.payload)))

/-- A message that can be fragmented is always answered. -/
theorem dispatch_cases (hs : s.Inv) (hg : gateOpen s = true) {m : Message} (hm : m.bcnt ≤ s.config.maxPayload) :
    ∃ t, dispatch m s = .next t ∧ Dispatched m s t := by
  obtain ⟨_, _, _, hdiff, _⟩ := hs.wf
  obtain ⟨cid, cmd, payload⟩ := m
  rw [dispatch_eq_exec]
  by_cases hinit : cmd = s.config.cmdInit
  · subst hinit
    rw [commandOf_init]
    by_cases hlen : payload.length < 8
    · rw [exec_cmdInit_of_short hg cid hlen]
      exact ⟨_, exec_errorInstr hs hg .invalidCommand cid, .rejected hdiff fun _ => hlen⟩
    · have hlong : 8 ≤ payload.length := by omega
      by_cases hx : s.chanCounter = 0xFFFFFFFF
      · exact ⟨_, exec_cmdInit_of_exhausted hg cid hlong hx, .exhausted rfl hlong hx⟩
      · exact ⟨_, exec_cmdInit_of_served hs hg cid hlong hx, .served rfl hlong hx⟩
  · by_cases hping : cmd = s.config.cmdPing
    · subst hping
      rw [commandOf_ping hs.wf, exec_cmdPing hg]
      exact ⟨_, exec_rspPing hg cid hm, .echoed rfl⟩
    · rw [commandOf_other hinit hping, exec_cmdOther hg]
      exact ⟨_, exec_errorInstr hs hg .invalidCommand cid, .rejected hping fun h => absurd h hinit⟩

/-! ## PKT rows -/

/-- PKT.INITIAL with the fields of the packet at the head of INQ makes one attempt on INQ and does what it asks for (R146). -/
theorem exec_head_of_attempt (hs : s.Inv) (hg : gateOpen s = true) {p0 : Packet} {rest : List Packet} {r : Reassembly}
    (hin : s.inContents = p0 :: rest) (h0 : isInitial p0 = true) (h : Attempt s.config s.inContents r) :
    exec (.pktInitial (pktCid p0) (pktCmd p0) (pktBcnt p0) (pktData p0)) s = handleOutcome (pktCid p0) r s := by
  have hattempt : reassemble s.config (peekN s.config.queueLen s.inq) s.inq.len = .ok r := h.reassemble_queue hs.wf hs.inq
  have hpeek : peekN s.config.queueLen s.inq 0 = .ok (some p0) := by
    rw [peekN_eq hs.inq.readable]
    exact congrArg _ (congrArg (·[0]?) hin)
  rw [reassemble, hpeek] at hattempt
  simp only [h0, if_true] at hattempt
  rw [exec, execPktInitial, whenOpen_of_open hg, hattempt]

/-- The idle budget, if there is one, is not used up (R150). -/
def InBudget (s : State) : Prop := ∀ b, s.config.idleTickBudget = some b → s.idleTicks < b

theorem handleOutcome_pending_of_inBudget (h : InBudget s) (cid : ChannelId) : handleOutcome cid .pending s = .next s := by
  rw [handleOutcome, stillPending]
  cases hb : s.config.idleTickBudget with
  | none => rfl
  | some b => exact if_neg (h b hb).not_ge

/-- A stalled message at the end of the budget is abandoned, and INQ with it (R151). -/
theorem handleOutcome_pending_of_spent (hs : s.Inv) (hg : gateOpen s = true) {b : Nat} (hb : s.config.idleTickBudget = some b)
    (hspent : b ≤ s.idleTicks) (cid : ChannelId) :
    handleOutcome cid .pending s = .next (errorStatus .messageTimeout
      ((retire s.inq.len s).queued [errorPacket s.config cid .messageTimeout])) := by
  have h := exec_errorInstr (hs.retire s.inq.len) (by rw [gateOpen_retire, hg]) .messageTimeout cid
  rw [retire_config] at h
  rw [handleOutcome, stillPending, hb]
  exact (if_pos hspent).trans h

theorem handleOutcome_error (hs : s.Inv) (hg : gateOpen s = true) (kind : ErrorKind) (bad cid : ChannelId) (n : Nat) :
    handleOutcome cid (.error kind bad n) s =
      .next (errorStatus kind ((retire n s).queued [errorPacket s.config bad kind])) := by
  have hraise : handleOutcome cid (.error kind bad n) s = exec (errorInstr kind bad) (retire n s) := by cases kind <;> rfl
  rw [hraise, exec_errorInstr (hs.retire n) (by rw [gateOpen_retire, hg]), retire_config]

/-- A message that completes from INQ is always answered. -/
theorem handleOutcome_complete (hs : s.Inv) (hg : gateOpen s = true) {m : Message} {n : Nat}
    (h : Attempt s.config s.inContents (.complete m n)) (cid : ChannelId) :
    ∃ t, handleOutcome cid (.complete m n) s = .next t ∧ Dispatched m (retire n s) t := by
  have hm : m.bcnt ≤ s.config.maxPayload := (h.bcnt_le hs.wf hs.inq).trans (maxReasm_le_maxPayload _)
  exact dispatch_cases (hs.retire n) (by rw [gateOpen_retire, hg]) (by rwa [retire_config])

end

/-! ## The statements about the instructions -/

/-- Settles O21. -/
theorem rspInitQueuesSeventeenBytes : Obligations.RspInitQueuesSeventeenBytes := by
  intro s cid nonce newCid hs hg hn
  exact ⟨_, _, exec_rspInit hs hg cid hn newCid, rfl, rfl, initResponsePayload_length s.config hn newCid, hs.queuedInto _⟩

/-- Settles O22. -/
theorem rspPingQueuesTheEcho : Obligations.RspPingQueuesTheEcho := by
  intro s cid payload hs hg
  exact ⟨fun hp => ⟨_, exec_rspPing hg cid hp, rfl, hs.queuedInto _⟩, exec_rspPing_of_long hg cid⟩

/-- Settles O23. -/
theorem rspErrorQueuesOnePacket : Obligations.RspErrorQueuesOnePacket := by
  intro s cid kind hs hg
  exact ⟨_, exec_rspError hs hg cid kind, rfl, hs.queuedInto _⟩

/-- Settles O24: an error of this kind has no status event. -/
theorem invalidCommandIsAnswered : Obligations.InvalidCommandIsAnswered := by
  intro s cid hs hg
  exact ⟨_, exec_errorInstr hs hg .invalidCommand cid, rfl, hs.queuedInto _⟩

/-- Settles O25. -/
theorem invalidSequenceIsAnswered : Obligations.InvalidSequenceIsAnswered := by
  intro s cid hs hg
  exact ⟨_, exec_errorInstr hs hg .invalidSequence cid, rfl, hs.queuedInto _⟩

/-- Settles O26. -/
theorem messageTimeoutIsAnswered : Obligations.MessageTimeoutIsAnswered := by
  intro s cid hs hg
  exact ⟨_, exec_errorInstr hs hg .messageTimeout cid, rfl, hs.queuedInto _⟩

/-- Settles O27: the allocator answers below the last value, and the response is the RSP.INIT row. -/
theorem initAllocatesTheNextChannel : Obligations.InitAllocatesTheNextChannel := by
  intro s cid payload hs hg hlong hx
  exact ⟨_, exec_cmdInit_of_served hs hg cid hlong hx, rfl, toNat_succ_of_ne hx, hs.queuedInto _⟩

/-- Settles O28: the length is looked at before the counter. -/
theorem shortInitIsRejected : Obligations.ShortInitIsRejected := by
  intro s cid payload hs hg hshort
  rw [exec_cmdInit_of_short hg cid hshort]
  exact invalidCommandIsAnswered s cid hs hg

/-- Settles O29. -/
theorem exhaustedCounterSetsTheFault : Obligations.ExhaustedCounterSetsTheFault := by
  intro s cid payload hg hlong hx
  exact exec_cmdInit_of_exhausted hg cid hlong hx

/-- Settles O30: the command is the RSP.PING row. -/
theorem pingEchoesItsPayload : Obligations.PingEchoesItsPayload := by
  intro s cid payload hs hg
  rw [exec_cmdPing hg]
  exact rspPingQueuesTheEcho s cid payload hs hg

/-- Settles O31: the command is the ERR.INVALID_CMD row, and `CMD_ERROR` is neither INIT nor PING (R4). -/
theorem unknownCommandIsRejected : Obligations.UnknownCommandIsRejected := by
  intro s cid cmd payload hs hg
  obtain ⟨_, _, _, _, hinit, hping, _⟩ := hs.wf
  rw [exec_cmdOther hg]
  exact ⟨fun h1 h2 => commandOf_other h1 h2 cid payload, commandOf_other hinit.symm hping.symm cid payload,
    invalidCommandIsAnswered s cid hs hg⟩

/-- Settles O32: one packet is retired. -/
theorem strayContinuationIsDiscarded : Obligations.StrayContinuationIsDiscarded := by
  intro s cid seq data hs hg
  have hexec : exec (.pktCont cid seq data) s = .next (retire 1 s) := by
    rw [exec, execPktCont, whenOpen_of_open hg, discardHead_eq_retire]
  refine ⟨_, hexec, ?_, ?_, ?_, retire_idleTicks 1 s⟩
  · rw [retire_idleTicks, retire_inq, retire_eq]
  · rw [hs.inContents_retire, List.drop_one]
  · rw [retire_inq, popN_slot]

/-- The packets of INQ behind a first part of them. -/
theorem inContents_retire_of_append {s : State} (hs : s.Inv) {ps rest : List Packet} {n : Nat} (hin : s.inContents = ps ++ rest)
    (hn : ps.length = n) : (retire n s).inContents = rest := by
  rw [hs.inContents_retire, hin, ← hn, List.drop_left]

/-- Settles O33: the attempt is complete; its packets are retired, then the dispatcher answers, which it always does. -/
theorem wholeMessageIsDispatched : Obligations.WholeMessageIsDispatched := by
  intro s p0 ps rest hs hg hin h0 hseq hwhole
  have hattempt := Attempt.whole rest h0 hseq hwhole
  rw [← hin] at hattempt
  have hbcnt := carriedPayload_length_of_whole hs.reportSize h0 (hs.inq.length_of_first hin) hwhole
  obtain ⟨t, ht, _⟩ := handleOutcome_complete hs hg hattempt (pktCid p0)
  have hexec := exec_head_of_attempt hs hg hin h0 hattempt
  refine ⟨_, retire (ps.length + 1) s, t, rfl, hbcnt, ?_, inContents_retire_of_append hs (ps := p0 :: ps) hin rfl, ?_, ?_,
    hexec.trans ht⟩
  · rw [retire_inq, retire_eq]
    rfl
  · rw [retire_inq, popN_slot]
  · rw [← ht, handleOutcome, dispatch_eq_exec, retire_config]

/-- Settles O34: the attempt is pending; what follows is told by the budget alone. -/
theorem pendingMessageWaitsOrIsAbandoned : Obligations.PendingMessageWaitsOrIsAbandoned := by
  intro s p0 ps hs hg hin h0 hseq hmissing
  have hattempt : Attempt s.config s.inContents .pending := hin ▸ .pending h0 hseq hmissing
  rw [exec_head_of_attempt hs hg hin h0 hattempt]
  refine ⟨fun hnone => ?_, fun b hb hlt => ?_, fun b hb hspent => ?_⟩
  · exact handleOutcome_pending_of_inBudget (fun b hb => by rw [hnone] at hb; cases hb) _
  · exact handleOutcome_pending_of_inBudget (fun b' hb' => by rw [hb] at hb'; cases hb'; exact hlt) _
  · have hcleared : idleCleared s = 0 := by simp [idleCleared, hb]
    refine ⟨_, handleOutcome_pending_of_spent hs hg hb hspent _, ?_, ?_, ?_, ?_⟩
    · simp only [errorStatus_inq, errorStatus_outq, queued_inq, queued_outq, retire_eq, hcleared]
      rfl
    · rw [errorStatus_inContents, queued_inContents, hs.inContents_retire_all]
    · rw [errorStatus_inq, queued_inq, retire_inq, popN_slot]
    · rw [errorStatus_outq, ← retire_config s.inq.len s, ← retire_outq s.inq.len s]
      exact (hs.retire _).queuedInto _

/-- Settles O35: the attempt fails at the offending packet, which is the last one retired. -/
theorem brokenMessageIsAnsweredAndRetired : Obligations.BrokenMessageIsAnsweredAndRetired := by
  intro s p0 bad ps rest hs hg hin h0 hseq hmissing hbad
  have hattempt := Attempt.broken rest h0 hseq hmissing hbad
  rw [← hin] at hattempt
  rw [exec_head_of_attempt hs hg hin h0 hattempt]
  have hfirst : s.inContents = (p0 :: ps ++ [bad]) ++ rest := by rw [hin]; simp
  refine ⟨_, handleOutcome_error hs hg _ _ _ _, ?_, ?_, ?_, ?_, ?_⟩
  · simp only [errorStatus_inq, errorStatus_outq, errorStatus_idleTicks, queued_inq, queued_outq, queued_idleTicks, retire_eq]
    rfl
  · rw [errorStatus_inContents, queued_inContents, inContents_retire_of_append hs hfirst (by simp)]
  · rw [errorStatus_inq, queued_inq, retire_inq, popN_slot]
  · rw [errorStatus_idleTicks, queued_idleTicks, retire_idleTicks]
    rfl
  · rw [errorStatus_outq, ← retire_config (ps.length + 2) s, ← retire_outq (ps.length + 2) s]
    exact (hs.retire _).queuedInto _

/-- Settles O36: the second INIT finds the counter one up, and its response is queued behind the first one. -/
theorem successiveInitsGetDifferentChannels : Obligations.SuccessiveInitsGetDifferentChannels := by
  intro s cid cid' payload payload' hs hg hlong hlong' hroom
  have hx : s.chanCounter ≠ 0xFFFFFFFF := by bv_omega
  have hx' : s.chanCounter + 1 ≠ 0xFFFFFFFF := by bv_omega
  have h0 := succ_ne_zero_of_ne hx
  have hne : s.chanCounter ≠ s.chanCounter + 1 := by bv_omega
  have ht : ((s.withChanCounter (s.chanCounter + 1)).queued
      (fragment s.config (initResponse s.config cid (payload.take 8) s.chanCounter))).Inv :=
    (hs.withChanCounter h0).queued fun _ => length_of_mem_fragment hs.reportSize
  refine ⟨_, _, exec_cmdInit_of_served hs hg cid hlong hx, exec_cmdInit_of_served ht hg cid' hlong' hx', hne, hs.chanCounter, hx,
    h0, hx', ?_⟩
  rw [List.append_assoc, ← hs.outContents_queued]
  exact congrArg (contents s.config.queueLen) (pushAll_append ..).symm

end Sys2Proof.Machine
end

section
/-! PROOFS. The PROCESS event (R146 to R151): the scan as one update, the attempt behind it, and what one event can come to, said once. -/

namespace Sys2Proof.Machine

/-! ## The scan -/

/-- Nothing to discard, or a retirement: one update of INQ and the idle count (R147). -/
theorem scanned_eq (s : State) :
    scanned s = (s.withInq (popN s.config.queueLen (s.inContents.takeWhile isContinuation).length s.inq)).withIdleTicks
      (if s.config.idleTickBudget = none ∨ s.inContents.takeWhile isContinuation = [] then s.idleTicks else 0) := by
  unfold scanned
  split
  · rename_i h
    simp only [h, or_true, if_true, List.length_nil, popN_zero]
    rfl
  · rename_i h
    simp only [h, or_false, retire_eq]
    rfl

@[simp] theorem scanned_config (s : State) : (scanned s).config = s.config := by simp [scanned_eq]
@[simp] theorem scanned_outq (s : State) : (scanned s).outq = s.outq := by simp [scanned_eq]
@[simp] theorem scanned_chanCounter (s : State) : (scanned s).chanCounter = s.chanCounter := by simp [scanned_eq]
@[simp] theorem scanned_connState (s : State) : (scanned s).connState = s.connState := by simp [scanned_eq]
@[simp] theorem scanned_fault (s : State) : (scanned s).fault = s.fault := by simp [scanned_eq]
@[simp] theorem scanned_outputs (s : State) : (scanned s).outputs = s.outputs := by simp [scanned_eq]
@[simp] theorem scanned_inq_slot (s : State) : (scanned s).inq.slot = s.inq.slot := by simp [scanned_eq]

@[simp] theorem scanned_outContents (s : State) : (scanned s).outContents = s.outContents := outContents_congr (by simp) (by simp)

@[simp] theorem gateOpen_scanned (s : State) : gateOpen (scanned s) = gateOpen s := gateOpen_congr (by simp) (by simp)

theorem scanned_of_head_initial {s : State} {p : Packet} {rest : List Packet} (hin : s.inContents = p :: rest)
    (hp : isInitial p = true) : scanned s = s := by
  have hnone : s.inContents.takeWhile isContinuation = [] := by simp [hin, isContinuation, hp]
  rw [scanned, if_pos hnone]

theorem scanned_of_empty {s : State} (hin : s.inContents = []) : scanned s = s := by
  rw [scanned, if_pos (by rw [hin]; rfl)]

theorem head_of_dropWhile_isContinuation {src : List Packet} {p : Packet}
    (h : (src.dropWhile isContinuation).head? = some p) : isInitial p = true := by
  have hnot := List.head?_dropWhile_not isContinuation src
  rw [h] at hnot
  simpa [isContinuation] using hnot

section
variable {s : State}

theorem State.Inv.scanned (h : s.Inv) : (scanned s).Inv := by
  unfold Machine.scanned
  split
  · exact h
  · exact h.retire _

theorem State.Inv.inContents_scanned (h : s.Inv) : (Machine.scanned s).inContents = s.inContents.dropWhile isContinuation := by
  have hsplit := List.takeWhile_append_dropWhile (p := isContinuation) (l := s.inContents)
  unfold Machine.scanned
  split
  · rename_i hnone
    rwa [hnone, List.nil_append, eq_comm] at hsplit
  · exact inContents_retire_of_append h hsplit.symm rfl

theorem State.Inv.head_scanned (h : s.Inv) {p : Packet} (hp : (Machine.scanned s).inContents.head? = some p) : isInitial p = true :=
  head_of_dropWhile_isContinuation (h.inContents_scanned ▸ hp)

/-! ## The attempt behind the scan -/

theorem process_eq_runHead (hs : s.Inv) (hg : gateOpen s = true) : takeEvent .process s = runHead (scanned s) := by
  rw [takeEvent, process, whenOpen_of_open hg, resync_eq hs.inq.readable hg hs.length_inContents.le, andThen_next]

theorem runHead_of_empty (hs : s.Inv) (hin : s.inContents = []) : runHead s = .next s := by
  rw [runHead, fetch_eq hs.inq.readable, hin]
  rfl

theorem runHead_of_cons (hs : s.Inv) {p : Packet} {rest : List Packet} (hin : s.inContents = p :: rest) :
    runHead s = exec (decodePacket p) s := by
  rw [runHead, fetch_eq hs.inq.readable, hin]
  rfl

/-- Behind the scan the step is one attempt and what it asks for (R146). -/
theorem runHead_of_attempt (hs : s.Inv) (hg : gateOpen s = true) (hhead : ∀ p, s.inContents.head? = some p → isInitial p = true)
    {r : Reassembly} (h : Attempt s.config s.inContents r) :
    runHead s = handleOutcome (pktCid (s.inContents.headD [])) r s := by
  rcases hin : s.inContents with _ | ⟨p, rest⟩
  · rw [hin] at h
    cases h
    exact runHead_of_empty hs hin
  · have hp : isInitial p = true := hhead p (by rw [hin]; rfl)
    rw [runHead_of_cons hs hin, decodePacket, if_pos hp]
    exact exec_head_of_attempt hs hg hin hp h

/-- PROCESS from what the attempt behind the scan answers. -/
theorem process_of_attempt (hs : s.Inv) (hg : gateOpen s = true) {r : Reassembly} (h : Attempt s.config (scanned s).inContents r) :
    takeEvent .process s = handleOutcome (pktCid ((scanned s).inContents.headD [])) r (scanned s) := by
  rw [process_eq_runHead hs hg]
  exact runHead_of_attempt hs.scanned (by rw [gateOpen_scanned, hg]) (fun _ => hs.head_scanned) (by rwa [scanned_config])

/-- What an attempt on a state can come to: nothing, an error with the packets retired, or an answer to the message (R148 to R151). -/
inductive Answered (s : State) : State → Prop where
  | idle (hin : s.inContents = []) : Answered s s
  | waiting (h : Attempt s.config s.inContents .pending) : Answered s s
  | abandoned (h : Attempt s.config s.inContents .pending) (hb : s.config.idleTickBudget ≠ none) (cid : ChannelId) :
      Answered s (errorStatus .messageTimeout ((retire s.inq.len s).queued [errorPacket s.config cid .messageTimeout]))
  | broken {bad : ChannelId} {n : Nat} (h : Attempt s.config s.inContents (.error .invalidSequence bad n)) :
      Answered s (errorStatus .invalidSequence ((retire n s).queued [errorPacket s.config bad .invalidSequence]))
  | dispatched {m : Message} {n : Nat} {t : State} (h : Attempt s.config s.inContents (.complete m n))
      (hd : Dispatched m (retire n s) t) : Answered s t

/-- Behind the scan an attempt is always answered. -/
theorem handleOutcome_cases (hs : s.Inv) (hg : gateOpen s = true) (hhead : ∀ p, s.inContents.head? = some p → isInitial p = true)
    {r : Reassembly} (h : Attempt s.config s.inContents r) (cid : ChannelId) :
    ∃ t, handleOutcome cid r s = .next t ∧ Answered s t := by
  cases r with
  | idle => exact ⟨s, rfl, .idle h.eq_nil_of_idle⟩
  | pending =>
    by_cases hb : InBudget s
    · exact ⟨s, handleOutcome_pending_of_inBudget hb cid, .waiting h⟩
    · simp only [InBudget, not_forall, Nat.not_lt] at hb
      obtain ⟨b, hb, hspent⟩ := hb
      exact ⟨_, handleOutcome_pending_of_spent hs hg hb hspent cid, .abandoned h (by simp [hb]) cid⟩
  | complete m n =>
    obtain ⟨t, ht, hd⟩ := handleOutcome_complete hs hg h cid
    exact ⟨t, ht, .dispatched h hd⟩
  | error kind bad n =>
    obtain rfl := h.kind_of_head_initial hhead
    exact ⟨_, handleOutcome_error hs hg _ _ _ _, .broken h⟩

/-- Everything that one PROCESS event can come to; it always comes to a next state. -/
theorem process_cases (hs : s.Inv) :
    ∃ t, takeEvent .process s = .next t ∧
      ((gateOpen s = false ∧ t = s) ∨ (gateOpen s = true ∧ Answered (scanned s) t)) := by
  rcases hg : gateOpen s with _ | _
  · exact ⟨s, whenOpen_of_closed hg _, .inl ⟨rfl, rfl⟩⟩
  · have hsc := hs.scanned
    obtain ⟨r, hr⟩ := exists_attempt hsc.reportSize hsc.length_of_mem_inContents
    obtain ⟨t, ht, ha⟩ := handleOutcome_cases hsc (by rw [gateOpen_scanned, hg]) (fun _ => hs.head_scanned) hr
      (pktCid ((scanned s).inContents.headD []))
    exact ⟨t, (process_of_attempt hs hg (by rwa [scanned_config] at hr)).trans ht, .inr ⟨rfl, ha⟩⟩

/-- The same, of the next state. -/
theorem answered_of_process (hs : s.Inv) {t : State} (h : takeEvent .process s = .next t) :
    (gateOpen s = false ∧ t = s) ∨ (gateOpen s = true ∧ Answered (scanned s) t) := by
  obtain ⟨t', ht', hcases⟩ := process_cases hs
  obtain rfl : t' = t := Host.Outcome.next.inj (ht'.symm.trans h)
  exact hcases

end

/-! ## The statements about PROCESS -/

/-- Settles O38: behind the scan there is one attempt; what its outcome asks for is the instruction of that outcome. -/
theorem processFollowsItsPseudocode : Obligations.ProcessFollowsItsPseudocode := by
  intro s hs hg
  have hsc := hs.scanned
  obtain ⟨r, hr⟩ := exists_attempt hsc.reportSize hsc.length_of_mem_inContents
  refine ⟨scanned s, r, hs.inContents_scanned, rfl, hr.reassemble_queue hsc.wf hsc.inq, ?_⟩
  rw [process_of_attempt hs hg (by rwa [scanned_config] at hr)]
  cases r with
  | idle => rfl
  | pending =>
    rw [handleOutcome, stillPending]
    cases (scanned s).config.idleTickBudget <;> rfl
  | complete m n => rw [handleOutcome, dispatch_eq_exec, retire_config]
  | error kind bad n => cases kind <;> rfl

/-- Settles O39: what the scan leaves has no continuation at its head, so that an attempt on it never meets one. -/
theorem strayContinuationsVanishSilently : Obligations.StrayContinuationsVanishSilently := by
  intro s hs hg
  have hsc := hs.scanned
  have hprocess := process_eq_runHead hs hg
  refine ⟨scanned s, resync_eq hs.inq.readable hg hs.length_inContents.le, hprocess, hs.inContents_scanned, scanned_inq_slot s, ?_,
    fun _ => hs.head_scanned, fun cid n hstray => ?_, fun hall => ?_⟩
  · rw [scanned_eq]
    rfl
  · have hattempt : Attempt _ (scanned s).inContents _ := attempt_of_reassemble_queue hsc.wf hsc.inq hstray
    cases hattempt.kind_of_head_initial fun _ => hs.head_scanned
  · have hempty : (scanned s).inContents = [] := by
      rw [hs.inContents_scanned, List.dropWhile_eq_nil_iff]
      exact fun p hp => List.all_eq_true.1 hall p hp
    exact ⟨hempty, hprocess.trans (runHead_of_empty hsc hempty)⟩

end Sys2Proof.Machine
end

section
/-! PROOFS. Two states that agree but for queue cursors and stale slots run in lockstep (R13): each update keeps them so, then each operation, then each
event. The relation carries the invariant of both, so that a state run beside itself keeps the invariant. -/

namespace Sys2Proof.Machine

/-! ## RESET (R24, R180) -/

theorem resetWith_inv {c : Config} (hc : c.wf) : (State.resetWith c).Inv := by
  obtain ⟨_, hlen, hdiv, _⟩ := id hc
  have hcounter : (1 : BitVec 32) ≠ 0 := by decide
  exact ⟨hc, .empty hlen, .empty hlen, hcounter, hdiv, Nat.zero_le _⟩

/-- Settles O44: RESET is the reset state with the parameters and the outside world kept. -/
theorem resetIsTakenInEveryState : Obligations.ResetIsTakenInEveryState := by
  intro s hc
  exact ⟨resetEngine s, rfl, resetWith_inv hc, rfl, rfl, rfl, rfl, fun _ => rfl, fun _ => rfl, rfl, rfl, rfl, rfl, rfl, rfl, rfl,
    rfl, rfl⟩

/-- Settles O45: the reference parameters are admitted, whatever the OPEN capability byte is. -/
theorem resetStateHasTheInvariant : Obligations.ResetStateHasTheInvariant := by
  have href : Config.reference.wf := by decide
  exact ⟨fun _ => resetWith_inv, resetWith_inv href, rfl, rfl, rfl⟩

/-! ## The relation, and the updates that keep it -/

/-- Two states with the invariant that no operation can tell apart (R13). -/
structure Alike (s t : State) : Prop where
  left : s.Inv
  right : t.Inv
  config : s.config = t.config
  inContents : s.inContents = t.inContents
  outContents : s.outContents = t.outContents
  chanCounter : s.chanCounter = t.chanCounter
  tickDiv : s.tickDiv = t.tickDiv
  connState : s.connState = t.connState
  idleTicks : s.idleTicks = t.idleTicks
  fault : s.fault = t.fault
  pending : s.pending = t.pending
  freeIndex : s.freeIndex = t.freeIndex
  outputs : s.outputs = t.outputs

section
variable {s t : State}

theorem Alike.same (h : Alike s t) : Indistinguishable s t :=
  ⟨h.config, h.inContents, h.outContents, h.chanCounter, h.tickDiv, h.connState, h.idleTicks, h.fault, h.pending, h.freeIndex,
    h.outputs⟩

theorem Alike.of_indistinguishable (hs : s.Inv) (ht : t.Inv) (h : Indistinguishable s t) : Alike s t := by
  obtain ⟨hconfig, hin, hout, hcounter, htick, hconn, hidle, hfault, hpending, hfree, houtputs⟩ := h
  exact ⟨hs, ht, hconfig, hin, hout, hcounter, htick, hconn, hidle, hfault, hpending, hfree, houtputs⟩

theorem Alike.refl (h : s.Inv) : Alike s s := ⟨h, h, rfl, rfl, rfl, rfl, rfl, rfl, rfl, rfl, rfl, rfl, rfl⟩

theorem Alike.gateOpen (h : Alike s t) : gateOpen s = gateOpen t := gateOpen_congr h.fault h.connState

theorem Alike.inq_len (h : Alike s t) : s.inq.len = t.inq.len := by
  rw [← h.left.length_inContents, ← h.right.length_inContents, h.inContents]

theorem Alike.outq_len (h : Alike s t) : s.outq.len = t.outq.len := by
  rw [← h.left.length_outContents, ← h.right.length_outContents, h.outContents]

theorem Alike.withInq (h : Alike s t) {q r : Queue} (hq : q.Inv s.config) (hr : r.Inv t.config)
    (hcont : contents s.config.queueLen q = contents t.config.queueLen r) : Alike (s.withInq q) (t.withInq r) :=
  ⟨h.left.withInq hq, h.right.withInq hr, h.config, hcont, h.outContents, h.chanCounter, h.tickDiv, h.connState, h.idleTicks,
    h.fault, h.pending, h.freeIndex, h.outputs⟩

theorem Alike.withOutq (h : Alike s t) {q r : Queue} (hq : q.Inv s.config) (hr : r.Inv t.config)
    (hcont : contents s.config.queueLen q = contents t.config.queueLen r) : Alike (s.withOutq q) (t.withOutq r) :=
  ⟨h.left.withOutq hq, h.right.withOutq hr, h.config, h.inContents, hcont, h.chanCounter, h.tickDiv, h.connState, h.idleTicks,
    h.fault, h.pending, h.freeIndex, h.outputs⟩

theorem Alike.withChanCounter (h : Alike s t) {v : BitVec 32} (hv : v ≠ 0) : Alike (s.withChanCounter v) (t.withChanCounter v) :=
  ⟨h.left.withChanCounter hv, h.right.withChanCounter hv, h.config, h.inContents, h.outContents, rfl, h.tickDiv, h.connState,
    h.idleTicks, h.fault, h.pending, h.freeIndex, h.outputs⟩

theorem Alike.withTickDiv (h : Alike s t) {n : Nat} (hn : n < s.config.tickDivider) : Alike (s.withTickDiv n) (t.withTickDiv n) :=
  ⟨h.left.withTickDiv hn, h.right.withTickDiv (h.config ▸ hn), h.config, h.inContents, h.outContents, h.chanCounter, rfl,
    h.connState, h.idleTicks, h.fault, h.pending, h.freeIndex, h.outputs⟩

theorem Alike.withConnState (h : Alike s t) (c : ConnState) : Alike (s.withConnState c) (t.withConnState c) :=
  ⟨h.left.withConnState c, h.right.withConnState c, h.config, h.inContents, h.outContents, h.chanCounter, h.tickDiv, rfl,
    h.idleTicks, h.fault, h.pending, h.freeIndex, h.outputs⟩

theorem Alike.withIdleTicks (h : Alike s t) {n : Nat} (hn : n ≤ s.config.idleTickBudget.getD 0) :
    Alike (s.withIdleTicks n) (t.withIdleTicks n) :=
  ⟨h.left.withIdleTicks hn, h.right.withIdleTicks (h.config ▸ hn), h.config, h.inContents, h.outContents, h.chanCounter, h.tickDiv,
    h.connState, rfl, h.fault, h.pending, h.freeIndex, h.outputs⟩

theorem Alike.withFault (h : Alike s t) (f : Option FaultReason) : Alike (s.withFault f) (t.withFault f) :=
  ⟨h.left.withFault f, h.right.withFault f, h.config, h.inContents, h.outContents, h.chanCounter, h.tickDiv, h.connState,
    h.idleTicks, rfl, h.pending, h.freeIndex, h.outputs⟩

theorem Alike.withPending (h : Alike s t) (es : List Event) : Alike (s.withPending es) (t.withPending es) :=
  ⟨h.left.withPending es, h.right.withPending es, h.config, h.inContents, h.outContents, h.chanCounter, h.tickDiv, h.connState,
    h.idleTicks, h.fault, rfl, h.freeIndex, h.outputs⟩

theorem Alike.withFreeIndex (h : Alike s t) (n : Nat) : Alike (s.withFreeIndex n) (t.withFreeIndex n) :=
  ⟨h.left.withFreeIndex n, h.right.withFreeIndex n, h.config, h.inContents, h.outContents, h.chanCounter, h.tickDiv, h.connState,
    h.idleTicks, h.fault, h.pending, rfl, h.outputs⟩

theorem Alike.output (h : Alike s t) (o : Output) : Alike (s.output o) (t.output o) :=
  ⟨h.left.output o, h.right.output o, h.config, h.inContents, h.outContents, h.chanCounter, h.tickDiv, h.connState,
    h.idleTicks, h.fault, h.pending, h.freeIndex, congrArg (· ++ [o]) h.outputs⟩

theorem Alike.errorStatus (h : Alike s t) (kind : ErrorKind) : Alike (errorStatus kind s) (errorStatus kind t) := by
  cases kind with
  | invalidCommand => exact h
  | invalidSequence => exact h.output _
  | messageTimeout => exact h.output _

theorem Alike.queued (h : Alike s t) {ps : List Packet} (hps : ∀ p ∈ ps, p.length = s.config.reportSize) :
    Alike (s.queued ps) (t.queued ps) := by
  refine h.withOutq (h.left.outq.pushAll hps) (h.right.outq.pushAll (h.config ▸ hps)) ?_
  change (s.queued ps).outContents = (t.queued ps).outContents
  rw [h.left.outContents_queued, h.right.outContents_queued, h.outContents, h.config]

theorem Alike.retire (h : Alike s t) (n : Nat) : Alike (retire n s) (retire n t) := by
  have hidle : idleCleared t = idleCleared s := by rw [idleCleared, idleCleared, h.config, h.idleTicks]
  rw [retire_eq, retire_eq, hidle]
  refine (h.withInq (h.left.inq.popN n) (h.right.inq.popN n) ?_).withIdleTicks ((idleCleared_le s).trans h.left.idleTicks)
  rw [contents_popN h.left.inq.readable, contents_popN h.right.inq.readable]
  exact congrArg (List.drop n) h.inContents

theorem Alike.scanned (h : Alike s t) : Alike (scanned s) (scanned t) := by
  unfold Machine.scanned
  rw [h.inContents]
  split
  · exact h
  · exact h.retire _

theorem Alike.resetEngine (h : Alike s t) : Alike (resetEngine s) (resetEngine t) :=
  ⟨resetWith_inv h.left.wf, resetWith_inv h.right.wf, h.config, rfl, rfl, rfl, rfl, rfl, rfl, rfl, h.pending, h.freeIndex, h.outputs⟩

theorem Alike.nextEvent (h : Alike s t) : nextEvent s = nextEvent t := by
  rw [Machine.nextEvent, Machine.nextEvent, h.pending, h.freeIndex]

theorem Alike.drawEvent (h : Alike s t) : Alike (drawEvent s) (drawEvent t) := by
  unfold Machine.drawEvent
  rw [h.pending, h.freeIndex]
  cases t.pending with
  | nil => exact h.withFreeIndex _
  | cons e es => exact h.withPending es

/-! ## The operations -/

/-- Both go on to states alike, or both are refused for the same reason; neither faults. -/
inductive Lockstep : Outcome → Outcome → Prop where
  | next {s t : State} (h : Alike s t) : Lockstep (.next s) (.next t)
  | refused (r : Refusal) : Lockstep (.refused r) (.refused r)

theorem Lockstep.andThen {o o' : Outcome} {k k' : State → Outcome} (h : Lockstep o o')
    (hk : ∀ u v, Alike u v → Lockstep (k u) (k' v)) : Lockstep (andThen o k) (andThen o' k') := by
  cases h with
  | next h => exact hk _ _ h
  | refused r => exact .refused r

theorem Alike.whenOpen (h : Alike s t) {o o' : Outcome} (ho : Lockstep o o') : Lockstep (whenOpen s o) (whenOpen t o') := by
  rw [Machine.whenOpen, Machine.whenOpen, h.gateOpen]
  split
  · exact ho
  · exact .next h

theorem Alike.emit (h : Alike s t) (m : Message) : Lockstep (emit m s) (emit m t) := by
  rcases emit_eq m s with ⟨hm, he⟩ | ⟨hm, he⟩
  · rw [he, emit_eq_queued (h.config ▸ hm), ← h.config]
    exact .next (h.queued fun _ => length_of_mem_fragment h.left.reportSize)
  · have he' : Machine.emit m t = .refused .messageTooLong := if_neg (h.config ▸ hm).not_ge
    rw [he, he']
    exact .refused _

theorem Alike.takeError (h : Alike s t) (kind : ErrorKind) (cid : ChannelId) :
    Lockstep (takeError kind cid s) (takeError kind cid t) := by
  rw [Machine.takeError, Machine.takeError, h.config]
  exact (h.emit _).andThen fun _ _ huv => .next (huv.errorStatus kind)

theorem Alike.raiseError (h : Alike s t) (kind : ErrorKind) (cid : ChannelId) :
    Lockstep (raiseError kind cid s) (raiseError kind cid t) := by
  rw [raiseError_eq, raiseError_eq]
  exact h.whenOpen (h.takeError kind cid)

theorem Alike.execCmdInit (h : Alike s t) (cid : ChannelId) (payload : List Byte) :
    Lockstep (execCmdInit cid payload s) (execCmdInit cid payload t) := by
  refine h.whenOpen ?_
  by_cases hshort : isShortInit payload = true
  · rw [if_pos hshort, if_pos hshort]
    exact h.raiseError .invalidCommand cid
  · rw [if_neg hshort, if_neg hshort, allocChannel, allocChannel, h.chanCounter]
    by_cases hx : t.chanCounter = 0xFFFFFFFF
    · rw [if_pos hx, if_pos hx]
      exact .next (h.withFault _)
    · rw [if_neg hx, if_neg hx]
      have hup := h.withChanCounter (succ_ne_zero_of_ne hx)
      refine hup.whenOpen ?_
      rw [hup.config]
      exact hup.emit _

theorem Alike.dispatch (h : Alike s t) (m : Message) : Lockstep (dispatch m s) (dispatch m t) := by
  rw [Machine.dispatch, Machine.dispatch, h.config]
  by_cases hinit : m.cmd = t.config.cmdInit
  · rw [if_pos hinit, if_pos hinit]
    exact h.execCmdInit _ _
  · rw [if_neg hinit, if_neg hinit]
    by_cases hping : m.cmd = t.config.cmdPing
    · rw [if_pos hping, if_pos hping]
      refine h.whenOpen (h.whenOpen ?_)
      rw [h.config]
      exact h.emit _
    · rw [if_neg hping, if_neg hping]
      exact h.whenOpen (h.raiseError .invalidCommand _)

theorem Alike.stillPending (h : Alike s t) (cid : ChannelId) : Lockstep (stillPending cid s) (stillPending cid t) := by
  rw [Machine.stillPending, Machine.stillPending, h.config, h.idleTicks, h.inq_len]
  cases t.config.idleTickBudget with
  | none => exact .next h
  | some b =>
    by_cases hspent : b ≤ t.idleTicks
    · simp only [hspent, if_true]
      exact (h.retire _).raiseError .messageTimeout cid
    · simp only [hspent, if_false]
      exact .next h

theorem Alike.handleOutcome (h : Alike s t) (cid : ChannelId) (r : Reassembly) :
    Lockstep (handleOutcome cid r s) (handleOutcome cid r t) := by
  cases r with
  | idle => exact .next h
  | pending => exact h.stillPending cid
  | complete m n => exact (h.retire n).dispatch m
  | error kind bad n => exact (h.retire n).raiseError kind bad

/-! ## The events -/

/-- PROCESS: both scans leave the same contents, so both attempts answer the same. -/
theorem Alike.process (h : Alike s t) : Lockstep (takeEvent .process s) (takeEvent .process t) := by
  rcases hg : Machine.gateOpen s with _ | _
  · rw [takeEvent, takeEvent, Machine.process, Machine.process, whenOpen_of_closed hg, whenOpen_of_closed (h.gateOpen ▸ hg)]
    exact .next h
  · have hsc := h.scanned
    obtain ⟨r, hr⟩ := exists_attempt hsc.left.reportSize hsc.left.length_of_mem_inContents
    have hrs : Attempt s.config (Machine.scanned s).inContents r := by rwa [scanned_config] at hr
    have hrt : Attempt t.config (Machine.scanned t).inContents r := by rwa [h.config, hsc.inContents] at hrs
    rw [process_of_attempt h.left hg hrs, process_of_attempt h.right (h.gateOpen ▸ hg) hrt, hsc.inContents]
    exact hsc.handleOutcome _ r

theorem idleAfterReceive_le (budget : Nat) (pushed : Bool) (s : State) : idleAfterReceive budget pushed s ≤ budget := by
  unfold idleAfterReceive
  split
  · exact Nat.zero_le _
  · split <;> omega

theorem Alike.countIdle (h : Alike s t) (pushed : Bool) : Alike (countIdle pushed s) (countIdle pushed t) := by
  have hcount : ∀ b, idleAfterReceive b pushed s = idleAfterReceive b pushed t := fun b => by
    rw [idleAfterReceive, idleAfterReceive, isEmpty, isEmpty, h.inq_len, h.idleTicks]
  unfold Machine.countIdle
  rw [h.config]
  cases hb : t.config.idleTickBudget with
  | none => exact h
  | some b =>
    simp only [hcount b]
    exact h.withIdleTicks (by rw [h.config, hb]; exact idleAfterReceive_le b pushed t)

theorem State.Inv.contents_push (h : s.Inv) (p : Packet) :
    contents s.config.queueLen (push s.config.queueLen s.inq p) = (s.inContents ++ [p]).take s.config.queueLen :=
  contents_pushAll h.inq.readable h.inq.len_le [p]

theorem Alike.push (h : Alike s t) {p : Packet} (hp : p.length = s.config.reportSize) :
    Alike (s.withInq (push s.config.queueLen s.inq p)) (t.withInq (push t.config.queueLen t.inq p)) := by
  refine h.withInq (h.left.inq.push hp) (h.right.inq.push (h.config ▸ hp)) ?_
  rw [h.left.contents_push, h.right.contents_push, h.inContents, h.config]

theorem Alike.receive (h : Alike s t) (env : TransportAnswers) : Lockstep (receive env s) (receive env t) := by
  have hfull : isFull s.config.queueLen s.inq = isFull t.config.queueLen t.inq := by rw [isFull, isFull, h.inq_len, h.config]
  unfold Machine.receive
  rw [hfull]
  by_cases hask : (!isFull t.config.queueLen t.inq && env.dataAvailable) = true
  · rw [if_pos hask, if_pos hask]
    cases env.tryReceive with
    | none => exact .next ((h.output _).countIdle false)
    | some p =>
      by_cases hp : p.length = s.config.reportSize
      · simp only [if_pos hp, if_pos (h.config ▸ hp)]
        exact .next (((h.output _).push hp).countIdle true)
      · simp only [if_neg hp, if_neg (h.config ▸ hp)]
        exact .refused _
  · rw [if_neg hask, if_neg hask]
    exact .next (h.countIdle false)

theorem Alike.transmit (h : Alike s t) (env : TransportAnswers) : Lockstep (transmit env s) (transmit env t) := by
  have hempty : isEmpty s.outq = isEmpty t.outq := by rw [isEmpty, isEmpty, h.outq_len]
  have hpeek : peek s.config.queueLen s.outq = peek t.config.queueLen t.outq := by
    rw [peek_eq h.left.outq.readable, peek_eq h.right.outq.readable]
    exact congrArg (fun x => Except.ok (List.head? x)) h.outContents
  have hpop : contents s.config.queueLen (pop s.config.queueLen s.outq) = contents t.config.queueLen (pop t.config.queueLen t.outq) := by
    rw [contents_pop h.left.outq.readable, contents_pop h.right.outq.readable]
    exact congrArg List.tail h.outContents
  unfold Machine.transmit
  rw [hempty, hpeek, peek_eq h.right.outq.readable]
  by_cases hoffer : (env.readyToSend && !isEmpty t.outq) = true
  · rw [if_pos hoffer, if_pos hoffer]
    cases (contents t.config.queueLen t.outq).head? with
    | none => exact .next h
    | some p =>
      by_cases hsent : env.trySend = true
      · simp only [hsent, if_true]
        exact .next ((h.output _).withOutq h.left.outq.pop h.right.outq.pop hpop)
      · simp only [hsent]
        exact .next (h.output _)
  · rw [if_neg hoffer, if_neg hoffer]
    exact .next h

theorem Alike.frame (h : Alike s t) (env : TransportAnswers) : Lockstep (frame env s) (frame env t) := by
  have hdiv := h.left.tickDiv
  rw [Machine.frame, Machine.frame]
  refine h.whenOpen ?_
  rw [h.tickDiv, h.config]
  by_cases htick : t.tickDiv + 1 = t.config.tickDivider
  · rw [if_pos htick, if_pos htick]
    exact ((h.withTickDiv (by omega)).receive env).andThen fun _ _ huv => huv.transmit env
  · rw [if_neg htick, if_neg htick]
    rw [h.tickDiv, h.config] at hdiv
    exact .next (h.withTickDiv (by rw [h.config]; omega))

theorem Alike.setConn (h : Alike s t) (c : ConnState) : Alike (setConn c s) (setConn c t) := by
  rw [Machine.setConn, Machine.setConn, h.fault]
  split
  · exact (h.withConnState c).output _
  · exact h

theorem Alike.takeEvent (h : Alike s t) (e : Event) : Lockstep (takeEvent e s) (takeEvent e t) := by
  cases e with
  | reset => exact .next h.resetEngine
  | setConn c => exact .next (h.setConn c)
  | frame env => exact h.frame env
  | process => exact h.process

theorem Alike.step (h : Alike s t) : Lockstep (step s) (step t) := by
  rw [Machine.step, Machine.step, h.nextEvent]
  exact h.drawEvent.takeEvent _

/-- Every event keeps the invariant: a state runs in lockstep with itself. -/
theorem State.Inv.takeEvent (h : s.Inv) {e : Event} (he : takeEvent e s = .next t) : t.Inv := by
  have hself := (Alike.refl h).takeEvent e
  rw [he] at hself
  cases hself with
  | next halike => exact halike.left

end

/-- Settles O46: drawing the event keeps the invariant, and so does the event. -/
theorem everyStepKeepsTheInvariant : Obligations.EveryStepKeepsTheInvariant :=
  fun _ _ hs hstep => hs.drawEvent.takeEvent hstep

/-- Settles O48: indistinguishable states step in lockstep, which leaves no way to a fault. -/
theorem staleSlotsCannotBeObserved : Obligations.StaleSlotsCannotBeObserved := by
  intro s t hs ht hsame
  have hlock := (Alike.of_indistinguishable hs ht hsame).step
  refine ⟨fun u hu => ?_, fun r hr => ?_, fun r hr => ?_⟩
  · rw [hu] at hlock
    generalize hv : step t = o at hlock
    cases hlock with
    | next h => exact ⟨_, rfl, h.same⟩
  · rw [hr] at hlock
    generalize hv : step t = o at hlock
    cases hlock
    rfl
  · rw [hr] at hlock
    cases hlock

end Sys2Proof.Machine
end

section
/-! PROOFS. The events one by one (R140 to R152): the gate, FRAME between two ticks and at a tick, SetConn, and the instruction that a PROCESS step runs. -/

namespace Sys2Proof.Machine

theorem gateOpen_of_fault {s : State} (h : s.fault ≠ none) : gateOpen s = false := by simp [gateOpen, h]

theorem gateOpen_of_connState {s : State} (h : s.connState ≠ .configured) : gateOpen s = false := by simp [gateOpen, h]

theorem takeEvent_frame_of_closed {s : State} (h : gateOpen s = false) (env : TransportAnswers) :
    takeEvent (.frame env) s = .next s := whenOpen_of_closed h _

theorem takeEvent_process_of_closed {s : State} (h : gateOpen s = false) : takeEvent .process s = .next s := whenOpen_of_closed h _

theorem setConn_of_no_fault {s : State} (h : s.fault = none) (c : ConnState) :
    takeEvent (.setConn c) s = .next ((s.withConnState c).output (.status (statusOf c))) :=
  congrArg _ (if_pos h)

/-- With a fault nothing is taken but RESET (R141, R152). -/
theorem takeEvent_of_fault {s : State} (h : s.fault ≠ none) {e : Event} (he : e ≠ .reset) : takeEvent e s = .next s := by
  cases e with
  | reset => exact absurd rfl he
  | setConn c => exact congrArg _ (if_neg h)
  | frame env => exact takeEvent_frame_of_closed (gateOpen_of_fault h) env
  | process => exact takeEvent_process_of_closed (gateOpen_of_fault h)

/-- Settles O40. -/
theorem gateSuspendsTheEngine : Obligations.GateSuspendsTheEngine := by
  intro s e
  refine ⟨fun hfault => takeEvent_of_fault hfault, fun hconn => ⟨?_, ?_⟩, ?_⟩
  · rintro env rfl
    exact takeEvent_frame_of_closed (gateOpen_of_connState hconn) env
  · rintro rfl
    exact takeEvent_process_of_closed (gateOpen_of_connState hconn)
  · rintro c hfault rfl
    exact ⟨_, setConn_of_no_fault hfault c, rfl⟩

/-- Settles O43. -/
theorem setConnChangesOnlyTheMode : Obligations.SetConnChangesOnlyTheMode := by
  intro s h
  exact ⟨setConn_of_no_fault h _, setConn_of_no_fault h _, setConn_of_no_fault h _⟩

/-- Settles O41. -/
theorem frameBetweenTicksOnlyCounts : Obligations.FrameBetweenTicksOnlyCounts := by
  intro s env hg hcount
  exact (whenOpen_of_open hg _).trans (if_neg hcount)

/-! ## A tick -/

/-- The packet that the transmit shuttle offers (R145). -/
def offeredPacket (env : TransportAnswers) (s : State) : Option Packet := if env.readyToSend then s.outContents.head? else none

/-- The state after a tick (R143 to R145): at most one packet in, at most one out, the calls recorded, the idle count moved. -/
def ticked (env : TransportAnswers) (s : State) : State :=
  { s with
    tickDiv := 0
    inq := pushAll s.config.queueLen s.inq (takenPacket env s).toList
    outq := if env.trySend && (offeredPacket env s).isSome then pop s.config.queueLen s.outq else s.outq
    outputs := s.outputs ++ (if !isFull s.config.queueLen s.inq && env.dataAvailable then [.tryReceive env.tryReceive] else []) ++
      (offeredPacket env s).toList.map fun p => .trySend p env.trySend
    idleTicks := match s.config.idleTickBudget with
      | none => s.idleTicks
      | some budget => idleAfterReceive budget (takenPacket env s).isSome s }

section
variable {s : State}

/-- A tick is refused for a buffer that is no packet, and else comes to `ticked`. -/
theorem frame_tick_cases (hs : s.Inv) (hg : gateOpen s = true) (htick : s.tickDiv + 1 = s.config.tickDivider)
    (env : TransportAnswers) :
    (∃ p, takenPacket env s = some p ∧ p.length ≠ s.config.reportSize ∧
      takeEvent (.frame env) s = .refused .packetSizeMismatch) ∨
    takeEvent (.frame env) s = .next (ticked env s) := by
  have htaken : takeEvent (.frame env) s = shuttle env (s.withTickDiv 0) := (whenOpen_of_open hg _).trans (if_pos htick)
  rw [htaken, shuttle]
  rcases receive_cases env (s.withTickDiv 0) with ⟨p, hp, hlen, hrefused⟩ | ⟨_, hnext⟩
  · exact .inl ⟨p, hp, hlen, by rw [hrefused]; rfl⟩
  · refine .inr ?_
    rw [hnext, andThen_next]
    refine transmit_eq ?_ env
    exact hs.outq.readable

/-- What is taken is what the transport hands over, and there is room for it (R144). -/
theorem of_takenPacket_eq_some {env : TransportAnswers} {p : Packet} (h : takenPacket env s = some p) :
    s.inq.len ≠ s.config.queueLen ∧ env.tryReceive = some p := by
  unfold takenPacket at h
  split at h
  · rename_i hask
    have hfull : isFull s.config.queueLen s.inq = false := by
      rw [Bool.and_eq_true, Bool.not_eq_true'] at hask
      exact hask.1
    exact ⟨(isFull_eq_false_iff _ _).1 hfull, h⟩
  · cases h

theorem length_of_takenPacket {env : TransportAnswers} (hfit : eventFits s.config (.frame env) = true) {p : Packet}
    (h : takenPacket env s = some p) : p.length = s.config.reportSize := by
  rw [eventFits, (of_takenPacket_eq_some h).2] at hfit
  exact of_decide_eq_true hfit

theorem frame_tick_of_fits (hs : s.Inv) (hg : gateOpen s = true) (htick : s.tickDiv + 1 = s.config.tickDivider)
    {env : TransportAnswers} (hfit : eventFits s.config (.frame env) = true) :
    takeEvent (.frame env) s = .next (ticked env s) := by
  rcases frame_tick_cases hs hg htick env with ⟨p, hp, hlen, _⟩ | h
  · exact absurd (length_of_takenPacket hfit hp) hlen
  · exact h

/-- Everything that a FRAME which is not refused can come to. -/
theorem of_takeEvent_frame (hs : s.Inv) {env : TransportAnswers} {t : State} (h : takeEvent (.frame env) s = .next t) :
    t = s ∨ t = s.withTickDiv (s.tickDiv + 1) ∨ t = ticked env s := by
  rcases hg : gateOpen s with _ | _
  · rw [takeEvent_frame_of_closed hg] at h
    exact .inl (Host.Outcome.next.inj h).symm
  · by_cases htick : s.tickDiv + 1 = s.config.tickDivider
    · rcases frame_tick_cases hs hg htick env with ⟨_, _, _, hrefused⟩ | hnext
      · rw [hrefused] at h
        cases h
      · rw [hnext] at h
        exact .inr (.inr (Host.Outcome.next.inj h).symm)
    · rw [frameBetweenTicksOnlyCounts s env hg htick] at h
      exact .inr (.inl (Host.Outcome.next.inj h).symm)

/-- What a tick takes in stands behind what INQ held. -/
theorem State.Inv.inContents_ticked (hs : s.Inv) (env : TransportAnswers) :
    (ticked env s).inContents = s.inContents ++ (takenPacket env s).toList := by
  have hlen := hs.length_inContents
  have hcap := hs.inq.len_le
  refine (contents_pushAll hs.inq.readable hcap _).trans (List.take_of_length_le ?_)
  change (s.inContents ++ _).length ≤ _
  rw [List.length_append]
  rcases htaken : takenPacket env s with _ | p
  · simpa [hlen] using hcap
  · have hroom := (of_takenPacket_eq_some htaken).1
    simp
    omega

/-- What a tick sends is the oldest packet of OUTQ, when it is accepted. -/
theorem State.Inv.outContents_ticked (hs : s.Inv) (env : TransportAnswers) :
    (ticked env s).outContents =
      if env.trySend && (offeredPacket env s).isSome then s.outContents.tail else s.outContents := by
  have hout : (ticked env s).outContents = contents s.config.queueLen
      (if env.trySend && (offeredPacket env s).isSome then pop s.config.queueLen s.outq else s.outq) := rfl
  rw [hout]
  split
  · exact contents_pop hs.outq.readable
  · rfl

theorem State.Inv.not_isFull (hs : s.Inv) : (!isFull s.config.queueLen s.inq) = decide (s.inq.len < s.config.queueLen) := by
  have hcap := hs.inq.len_le
  rw [isFull, ← decide_not, decide_eq_decide]
  omega

theorem State.Inv.isEmpty_inq (hs : s.Inv) : isEmpty s.inq = true ↔ s.inContents = [] := by
  rw [isEmpty_iff, ← hs.length_inContents, List.length_eq_zero_iff]

end

/-- Settles O42: the tick's one state, read register by register. -/
theorem tickMovesAtMostOnePacketEachWay : Obligations.TickMovesAtMostOnePacketEachWay := by
  intro s env hs hg hfit htick
  refine ⟨ticked env s, frame_tick_of_fits hs hg htick hfit, rfl, ?_⟩
  have htaken : takenPacket env s = if decide (s.inq.len < s.config.queueLen) && env.dataAvailable then env.tryReceive else none := by
    rw [takenPacket, hs.not_isFull]
  refine ⟨by rw [hs.inContents_ticked, htaken], hs.outContents_ticked env, ?_, fun hnone => ?_, fun b hb => ?_⟩
  · rw [← hs.not_isFull]
    rfl
  · simp only [ticked, hnone]
  · simp only [ticked, hb, idleAfterReceive, hs.isEmpty_inq, htaken]

/-! ## PROCESS as the instruction at the head (R146, R147) -/

/-- The scan has the same end after its first turn. -/
theorem scanned_retire_one {s : State} (hs : s.Inv) (hg : gateOpen s = true) {p : Packet} {rest : List Packet}
    (hin : s.inContents = p :: rest) (hp : isContinuation p = true) : scanned (retire 1 s) = scanned s := by
  have hrest : (retire 1 s).inContents = rest := inContents_retire_of_append hs (ps := [p]) hin rfl
  have hscan := resync_eq hs.inq.readable hg (fuel := rest.length + 1) (by rw [hin]; rfl)
  rw [resync, fetch_eq hs.inq.readable, hin] at hscan
  simp only [List.head?_cons, Option.map_some, isStray_decodePacket, hp, if_true, exec_continuation hg hp, andThen_next] at hscan
  rw [resync_eq (hs.retire 1).inq.readable (by rw [gateOpen_retire, hg]) (by rw [hrest])] at hscan
  exact Host.Outcome.next.inj hscan

theorem process_of_head_initial {s : State} (hs : s.Inv) (hg : gateOpen s = true) {p : Packet} {rest : List Packet}
    (hin : s.inContents = p :: rest) (hp : isInitial p = true) : takeEvent .process s = exec (decodePacket p) s := by
  rw [process_eq_runHead hs hg, scanned_of_head_initial hin hp, runHead_of_cons hs hin]

theorem process_of_head_continuation {s : State} (hs : s.Inv) (hg : gateOpen s = true) {p : Packet} {rest : List Packet}
    (hin : s.inContents = p :: rest) (hp : isContinuation p = true) :
    takeEvent .process s = andThen (exec (decodePacket p) s) (takeEvent .process) := by
  rw [exec_continuation hg hp, andThen_next, process_eq_runHead hs hg, ← scanned_retire_one hs hg hin hp]
  exact (process_eq_runHead (hs.retire 1) (by rw [gateOpen_retire, hg])).symm

theorem process_of_empty {s : State} (hs : s.Inv) (hg : gateOpen s = true) (hin : s.inContents = []) :
    takeEvent .process s = .next s := by
  rw [process_eq_runHead hs hg, scanned_of_empty hin, runHead_of_empty hs hin]

/-- Settles O37: the drawn state has the same INQ, and the instruction is the packet decoded. -/
theorem stepRunsTheInstructionAtTheHead : Obligations.StepRunsTheInstructionAtTheHead := by
  intro s hs hg hnext
  have hd := hs.drawEvent
  have hgd : gateOpen (drawEvent s) = true := by rw [gateOpen_drawEvent, hg]
  have hstep : step s = takeEvent .process (drawEvent s) := by rw [step, hnext]
  refine ⟨fun p rest i hin hi => ?_, fun hin => ?_, fun e es hpending => ?_, fun hpending => ?_⟩
  · have hlen : p.length = s.config.reportSize := hs.length_of_mem_inContents p (hin ▸ List.mem_cons_self)
    obtain rfl : decodePacket p = i := Except.ok.inj ((decode_packet hlen).symm.trans hi)
    rw [← drawEvent_inContents] at hin
    rw [hstep]
    exact ⟨process_of_head_initial hd hgd hin,
      fun hp => process_of_head_continuation hd hgd hin (by rw [isContinuation, hp]; rfl)⟩
  · rw [← drawEvent_inContents] at hin
    rw [hstep, process_of_empty hd hgd hin]
  · rw [nextEvent, drawEvent, hpending]
    exact ⟨rfl, rfl⟩
  · rw [drawEvent, hpending]

end Sys2Proof.Machine
end

section
/-! PROOFS. No operation writes the parameters (R182): said of each outcome, and of each operation once, for every state. -/

namespace Sys2Proof.Machine

/-- The outcome goes on with the parameters `c`, or stops. -/
def KeepsConfig (c : Config) : Outcome → Prop
  | .next t => t.config = c
  | .fault _ => True
  | .refused _ => True

section
variable {c : Config} {s : State}

theorem KeepsConfig.andThen {o : Outcome} {k : State → Outcome} (h : KeepsConfig c o)
    (hk : ∀ t, t.config = c → KeepsConfig c (k t)) : KeepsConfig c (andThen o k) := by
  cases o with
  | next t => exact hk t h
  | fault r => trivial
  | refused r => trivial

theorem KeepsConfig.whenOpen {o : Outcome} (hs : s.config = c) (h : KeepsConfig c o) : KeepsConfig c (whenOpen s o) := by
  rw [Machine.whenOpen]
  split
  · exact h
  · exact hs

theorem keepsConfig_emit (hs : s.config = c) (m : Message) : KeepsConfig c (emit m s) := by
  rw [emit]
  split
  · exact hs
  · trivial

theorem keepsConfig_raiseError (hs : s.config = c) (kind : ErrorKind) (cid : ChannelId) : KeepsConfig c (raiseError kind cid s) := by
  rw [raiseError_eq]
  exact .whenOpen hs ((keepsConfig_emit hs _).andThen fun t ht => (errorStatus_config kind t).trans ht)

theorem keepsConfig_execCmdInit (hs : s.config = c) (cid : ChannelId) (payload : List Byte) :
    KeepsConfig c (execCmdInit cid payload s) := by
  refine .whenOpen hs ?_
  split
  · exact keepsConfig_raiseError hs .invalidCommand cid
  · rcases allocChannel_cases s with ⟨_, halloc⟩ | ⟨_, halloc⟩
    · rw [halloc]
      exact hs
    · rw [halloc]
      have hup : (s.withChanCounter (s.chanCounter + 1)).config = c := hs
      exact .whenOpen hup (keepsConfig_emit hup _)

theorem keepsConfig_dispatch (hs : s.config = c) (m : Message) : KeepsConfig c (dispatch m s) := by
  rw [dispatch]
  split
  · exact keepsConfig_execCmdInit hs _ _
  · split
    · exact .whenOpen hs (.whenOpen hs (keepsConfig_emit hs _))
    · exact .whenOpen hs (keepsConfig_raiseError hs .invalidCommand _)

theorem keepsConfig_handleOutcome (hs : s.config = c) (cid : ChannelId) (r : Reassembly) : KeepsConfig c (handleOutcome cid r s) := by
  have hret : ∀ n, (retire n s).config = c := fun n => (retire_config n s).trans hs
  cases r with
  | idle => exact hs
  | pending =>
    rw [handleOutcome, stillPending]
    split
    · exact hs
    · split
      · exact keepsConfig_raiseError (hret _) .messageTimeout cid
      · exact hs
  | complete m n => exact keepsConfig_dispatch (hret n) m
  | error kind bad n => exact keepsConfig_raiseError (hret n) kind bad

theorem keepsConfig_discardHead (hs : s.config = c) : (discardHead s).config = c := by
  rw [discardHead_eq_retire, retire_config, hs]

/-- A packet at the head of INQ, of either format, executed. -/
theorem keepsConfig_exec_packet (hs : s.config = c) (p : Packet) : KeepsConfig c (exec (decodePacket p) s) := by
  rw [decodePacket]
  split
  · refine .whenOpen hs ?_
    split
    · trivial
    · exact keepsConfig_handleOutcome hs _ _
  · exact .whenOpen hs (keepsConfig_discardHead hs)

/-- What is fetched is a packet, decoded. -/
theorem of_fetch_eq_some {i : Instr} (h : fetch s = .ok (some i)) : ∃ p, i = decodePacket p := by
  unfold fetch at h
  split at h
  · cases h
  · cases h
  · rename_i p _
    exact ⟨p, (Option.some.inj (Except.ok.inj h)).symm⟩

theorem keepsConfig_resync (hs : s.config = c) (fuel : Nat) : KeepsConfig c (resync fuel s) := by
  induction fuel generalizing s with
  | zero => exact hs
  | succ fuel ih =>
    rw [resync]
    split
    · trivial
    · exact hs
    · rename_i i hi
      obtain ⟨p, rfl⟩ := of_fetch_eq_some hi
      split
      · exact (keepsConfig_exec_packet hs p).andThen fun t ht => ih ht
      · exact hs

theorem keepsConfig_runHead (hs : s.config = c) : KeepsConfig c (runHead s) := by
  rw [runHead]
  split
  · trivial
  · exact hs
  · rename_i i hi
    obtain ⟨p, rfl⟩ := of_fetch_eq_some hi
    exact keepsConfig_exec_packet hs p

theorem keepsConfig_receive (hs : s.config = c) (env : TransportAnswers) : KeepsConfig c (receive env s) := by
  rcases receive_cases env s with ⟨_, _, _, hrefused⟩ | ⟨_, hnext⟩
  · rw [hrefused]
    trivial
  · rw [hnext]
    exact hs

theorem keepsConfig_transmit (hs : s.config = c) (env : TransportAnswers) : KeepsConfig c (transmit env s) := by
  rw [transmit]
  split
  · split
    · trivial
    · exact hs
    · simp only
      split
      · exact hs
      · exact hs
  · exact hs

theorem keepsConfig_frame (hs : s.config = c) (env : TransportAnswers) : KeepsConfig c (frame env s) := by
  refine .whenOpen hs ?_
  split
  · exact (keepsConfig_receive (s := s.withTickDiv 0) hs env).andThen fun t ht => keepsConfig_transmit ht env
  · exact hs

theorem keepsConfig_takeEvent (hs : s.config = c) (e : Event) : KeepsConfig c (takeEvent e s) := by
  cases e with
  | reset => exact hs
  | setConn conn =>
    change (setConn conn s).config = c
    rw [setConn]
    split
    · exact hs
    · exact hs
  | frame env => exact keepsConfig_frame hs env
  | process => exact .whenOpen hs ((keepsConfig_resync hs _).andThen fun t ht => keepsConfig_runHead ht)

theorem takeEvent_config {t : State} {e : Event} (h : takeEvent e s = .next t) : t.config = s.config := by
  have hkeeps := keepsConfig_takeEvent (s := s) rfl e
  rwa [h] at hkeeps

end

/-- Settles O51: drawing the event writes no parameter, and no event does. -/
theorem parametersNeverChange : Obligations.ParametersNeverChange :=
  fun s _ hstep => (takeEvent_config hstep).trans (drawEvent_config s)

end Sys2Proof.Machine
end

section
/-! PROOFS. What one step changes, and what it leaves (R15, R42, R129, R170): read off the one list of what a PROCESS event and a FRAME can come to. -/

namespace Sys2Proof.Machine

/-- Settles O47: PROCESS always comes to a next state, a FRAME too when its buffer is a packet, and the other two events cannot stop. -/
theorem engineNeverStops : Obligations.EngineNeverStops := by
  intro s hs hfit
  have hd := hs.drawEvent
  rw [step]
  cases he : nextEvent s with
  | reset => exact ⟨_, rfl⟩
  | setConn c => exact ⟨_, rfl⟩
  | process =>
    obtain ⟨t, ht, _⟩ := process_cases hd
    exact ⟨t, ht⟩
  | frame env =>
    rw [he] at hfit
    rcases hg : gateOpen (drawEvent s) with _ | _
    · exact ⟨_, takeEvent_frame_of_closed hg env⟩
    · by_cases htick : (drawEvent s).tickDiv + 1 = (drawEvent s).config.tickDivider
      · exact ⟨_, frame_tick_of_fits hd hg htick (by rwa [drawEvent_config])⟩
      · exact ⟨_, frameBetweenTicksOnlyCounts _ env hg htick⟩

section
variable {s t : State}

/-- A command leaves INQ alone: its packets were retired before it (R148). -/
theorem Dispatched.inq_eq {m : Message} (h : Dispatched m s t) : t.inq = s.inq ∧ t.config = s.config := by
  cases h <;> exact ⟨rfl, rfl⟩

theorem Dispatched.inContents_eq {m : Message} (h : Dispatched m s t) : t.inContents = s.inContents :=
  inContents_congr h.inq_eq.2 h.inq_eq.1

/-- An attempt takes a first part of INQ away, or nothing. -/
theorem Answered.inContents_eq (hs : s.Inv) (h : Answered s t) : ∃ n, t.inContents = s.inContents.drop n := by
  cases h with
  | idle hin => exact ⟨0, rfl⟩
  | waiting h => exact ⟨0, rfl⟩
  | abandoned h hb cid => exact ⟨s.inq.len, by rw [errorStatus_inContents, queued_inContents, hs.inContents_retire]⟩
  | @broken bad n h => exact ⟨n, by rw [errorStatus_inContents, queued_inContents, hs.inContents_retire]⟩
  | @dispatched m n t h hd => exact ⟨n, by rw [hd.inContents_eq, hs.inContents_retire]⟩

/-- The attempt completes an INIT of at least eight bytes (R121, R122). -/
def ServesInit (s : State) (m : Message) (n : Nat) : Prop :=
  Attempt s.config s.inContents (.complete m n) ∧ m.cmd = s.config.cmdInit ∧ 8 ≤ m.bcnt

/-- The counter and the fault register move for a completed INIT only: the counter goes one up, or at its last value the fault is set and nothing is
sent (R123, R124). -/
theorem Answered.counter_cases (h : Answered s t) :
    (t.chanCounter = s.chanCounter ∧ t.fault = s.fault) ∨
    (∃ m n, ServesInit s m n ∧ s.chanCounter = 0xFFFFFFFF ∧ t = (retire n s).withFault (some .channelSpaceExhausted)) ∨
    (∃ m n, ServesInit s m n ∧ s.chanCounter ≠ 0xFFFFFFFF ∧ t.chanCounter = s.chanCounter + 1 ∧ t.fault = s.fault ∧
      t.inContents = (retire n s).inContents) := by
  cases h with
  | idle hin => exact .inl ⟨rfl, rfl⟩
  | waiting h => exact .inl ⟨rfl, rfl⟩
  | abandoned h hb cid => exact .inl (by simp)
  | broken h => exact .inl (by simp)
  | @dispatched m n t h hd =>
    cases hd with
    | rejected hping hshort => exact .inl (by simp)
    | exhausted hcmd hlong hx =>
      rw [retire_config] at hcmd
      rw [retire_chanCounter] at hx
      exact .inr (.inl ⟨m, n, ⟨h, hcmd, hlong⟩, hx, rfl⟩)
    | served hcmd hlong hx =>
      rw [retire_config] at hcmd
      rw [retire_chanCounter] at hx
      exact .inr (.inr ⟨m, n, ⟨h, hcmd, hlong⟩, hx, by simp, by simp, rfl⟩)
    | echoed hcmd => exact .inl (by simp)

/-- What stands in INQ when an INIT completes, as the statements on the counter and the fault name it. -/
theorem servesInit_packets (hs : s.Inv) {m : Message} {n : Nat} (h : ServesInit (scanned s) m n)
    (ht : t.inContents = (retire n (scanned s)).inContents) :
    ∃ p rest m n, s.inContents.dropWhile isContinuation = p :: rest ∧ isInitial p = true ∧ pktCmd p = s.config.cmdInit ∧
      8 ≤ (pktBcnt p).toNat ∧ reassembleList s.config (p :: rest) = .ok (.complete m n) ∧ m.cmd = s.config.cmdInit ∧
      8 ≤ m.bcnt ∧ t.inContents = (p :: rest).drop n := by
  have hsc := hs.scanned
  obtain ⟨hattempt, hcmd, hlong⟩ := h
  have hlist := hattempt.reassemble_eq (ε := DecodeError) hsc.reportSize hsc.length_of_mem_inContents
  obtain ⟨p0, ps, rest, hsrc, h0, _, hm, hbcnt, _, _⟩ := hattempt.complete_bounded hsc.reportSize hsc.length_of_mem_inContents
  rw [hsc.inContents_retire, hsrc] at ht
  rw [hsrc, scanned_config] at hlist
  rw [scanned_config] at hcmd
  have hcmd0 : pktCmd p0 = s.config.cmdInit := by rw [← hcmd, hm]
  exact ⟨p0, ps ++ rest, m, n, by rw [← hs.inContents_scanned, hsrc], h0, hcmd0, hbcnt ▸ hlong, hlist, hcmd, hlong, ht⟩

/-- An event that is neither RESET nor PROCESS leaves the counter alone and, without RESET, the fault register too. -/
theorem counter_of_other_event (hs : s.Inv) {e : Event} (hreset : e ≠ .reset) (hprocess : e ≠ .process)
    (h : takeEvent e s = .next t) : t.chanCounter = s.chanCounter ∧ t.fault = s.fault := by
  cases e with
  | reset => exact absurd rfl hreset
  | process => exact absurd rfl hprocess
  | setConn c =>
    obtain rfl := Host.Outcome.next.inj h
    unfold setConn
    split <;> exact ⟨rfl, rfl⟩
  | frame env => rcases of_takeEvent_frame hs h with rfl | rfl | rfl <;> exact ⟨rfl, rfl⟩

end

/-- Settles O49: the counter moves in one case of PROCESS alone. -/
theorem channelCounterOnlyCountsUp : Obligations.ChannelCounterOnlyCountsUp := by
  intro s t hs hreset hstep
  have hd := hs.drawEvent
  rw [step] at hstep
  by_cases he : nextEvent s = .process
  · rw [he] at hstep
    rcases answered_of_process hd hstep with ⟨_, rfl⟩ | ⟨_, hanswered⟩
    · exact .inl (drawEvent_chanCounter s)
    · rcases hanswered.counter_cases with ⟨hcounter, _⟩ | ⟨m, n, _, _, rfl⟩ | ⟨m, n, hserves, hx, hcounter, _, hin⟩
      · exact .inl (by simpa using hcounter)
      · exact .inl (by simp)
      · rw [scanned_chanCounter, drawEvent_chanCounter] at hx hcounter
        have hpackets := servesInit_packets hd hserves hin
        rw [drawEvent_inContents, drawEvent_config] at hpackets
        exact .inr ⟨hcounter ▸ toNat_succ_of_ne hx, he, hpackets⟩
  · have hcounter := (counter_of_other_event hd hreset he hstep).1
    exact .inl (hcounter.trans (drawEvent_chanCounter s))

/-- Settles O50: the fault is set in one case of PROCESS alone, and behind a set fault the gate is closed. -/
theorem faultComesFromExhaustionAndStays : Obligations.FaultComesFromExhaustionAndStays := by
  intro s t hs hstep
  have hd := hs.drawEvent
  rw [step] at hstep
  refine ⟨fun hnone hfault => ?_, fun hfault hreset => ?_⟩
  · rw [← drawEvent_fault] at hnone
    by_cases he : nextEvent s = .process
    · rw [he] at hstep
      rcases answered_of_process hd hstep with ⟨_, rfl⟩ | ⟨_, hanswered⟩
      · exact absurd hnone hfault
      · rcases hanswered.counter_cases with ⟨_, hsame⟩ | ⟨m, n, hserves, hx, rfl⟩ | ⟨m, n, _, _, _, hsame, _⟩
        · exact absurd (hsame.trans ((scanned_fault _).trans hnone)) hfault
        · have hpackets := servesInit_packets (t := (retire n (scanned (drawEvent s))).withFault (some .channelSpaceExhausted))
            hd hserves rfl
          rw [drawEvent_inContents, drawEvent_config] at hpackets
          exact ⟨he, by simpa using hx, by simp, by simp, by simp, hpackets⟩
        · exact absurd (hsame.trans ((scanned_fault _).trans hnone)) hfault
    · by_cases hreset : nextEvent s = .reset
      · rw [hreset] at hstep
        obtain rfl := Host.Outcome.next.inj hstep
        exact absurd rfl hfault
      · have hsame := (counter_of_other_event hd hreset he hstep).2
        exact absurd (hsame.trans hnone) hfault
  · rw [← drawEvent_fault] at hfault
    rw [takeEvent_of_fault hfault hreset] at hstep
    exact (Host.Outcome.next.inj hstep).symm

/-- The response messages of the engine, as packets (R129): nothing, an INIT response with the counter's value, an echo, or an ERROR message. -/
theorem answered_response {s t : State} (hs : s.Inv) (h : Answered s t) :
    ∃ response : List Packet, t.outContents = (s.outContents ++ response).take s.config.queueLen ∧
      (response = [] ∨
        (∃ cid nonce, nonce.length = 8 ∧ response = encodePackets s.config (.rspInit cid nonce s.chanCounter) ∧
          t.chanCounter.toNat = s.chanCounter.toNat + 1) ∨
        (∃ cid payload, payload.length ≤ s.config.maxReasm ∧ response = encodePackets s.config (.rspPing cid payload)) ∨
        (∃ cid kind, response = encodePackets s.config (.rspError cid kind) ∧
          (kind = .messageTimeout → s.config.idleTickBudget ≠ none))) := by
  have hsilent : s.outContents = (s.outContents ++ []).take s.config.queueLen := by
    rw [List.append_nil, List.take_of_length_le (hs.length_outContents.trans_le hs.outq.len_le)]
  have hqueued : ∀ n ps, ((retire n s).queued ps).outContents = (s.outContents ++ ps).take s.config.queueLen := fun n ps => by
    rw [(hs.retire n).outContents_queued, retire_outContents, retire_config]
  have herror : ∀ cid kind, [errorPacket s.config cid kind] = encodePackets s.config (.rspError cid kind) := fun cid kind =>
    (fragment_errorMsg hs.reportSize cid kind).symm
  cases h with
  | idle hin => exact ⟨[], hsilent, .inl rfl⟩
  | waiting h => exact ⟨[], hsilent, .inl rfl⟩
  | abandoned h hb cid =>
    exact ⟨_, by rw [errorStatus_outContents, hqueued], .inr (.inr (.inr ⟨cid, _, herror cid _, fun _ => hb⟩))⟩
  | @broken bad n h =>
    exact ⟨_, by rw [errorStatus_outContents, hqueued], .inr (.inr (.inr ⟨bad, _, herror bad _, fun hkind => by cases hkind⟩))⟩
  | @dispatched m n t h hd =>
    cases hd with
    | rejected hping hshort =>
      rw [retire_config]
      exact ⟨_, hqueued n _, .inr (.inr (.inr ⟨m.cid, _, herror m.cid _, fun hkind => by cases hkind⟩))⟩
    | exhausted hcmd hlong hx => exact ⟨[], (retire_outContents n s).trans hsilent, .inl rfl⟩
    | served hcmd hlong hx =>
      rw [retire_config, retire_chanCounter]
      rw [retire_chanCounter] at hx
      have hnonce : (m.payload.take 8).length = 8 := by
        rw [List.length_take]
        exact Nat.min_eq_left hlong
      exact ⟨_, hqueued n _, .inr (.inl ⟨m.cid, _, hnonce, rfl, toNat_succ_of_ne hx⟩)⟩
    | echoed hcmd =>
      rw [retire_config]
      exact ⟨_, hqueued n _, .inr (.inr (.inl ⟨m.cid, m.payload, h.bcnt_le hs.wf hs.inq, rfl⟩))⟩

/-- Settles O52: a gated PROCESS sends nothing, an attempt at most one message, and the scan sends nothing. -/
theorem processSendsAtMostOneResponse : Obligations.ProcessSendsAtMostOneResponse := by
  intro s t hs h
  rcases answered_of_process hs h with ⟨_, rfl⟩ | ⟨_, hanswered⟩
  · refine ⟨[], ?_, .inl rfl⟩
    rw [List.append_nil, List.take_of_length_le (hs.length_outContents.trans_le hs.outq.len_le)]
  · have hresponse := answered_response hs.scanned hanswered
    simpa only [scanned_config, scanned_outContents, scanned_chanCounter] using hresponse

/-- Settles O53: the scan and the attempt drop a first part of INQ, the response is appended to OUTQ; a tick appends to INQ and drops at most the head
of OUTQ. -/
theorem queuesAreFirstInFirstOut : Obligations.QueuesAreFirstInFirstOut := by
  intro s t hs
  refine ⟨fun h => ⟨?_, ?_⟩, fun env h => ?_⟩
  · rcases answered_of_process hs h with ⟨_, rfl⟩ | ⟨_, hanswered⟩
    · exact List.suffix_rfl
    · obtain ⟨n, hn⟩ := hanswered.inContents_eq hs.scanned
      rw [hn, hs.inContents_scanned]
      exact (List.drop_suffix _ _).trans (List.dropWhile_suffix _)
  · obtain ⟨response, hout, _⟩ := processSendsAtMostOneResponse s t hs h
    rw [hout, List.prefix_take_iff]
    exact ⟨List.prefix_append _ _, hs.length_outContents.trans_le hs.outq.len_le⟩
  · rcases of_takeEvent_frame hs h with rfl | rfl | rfl
    · exact ⟨List.prefix_rfl, Nat.le_succ _, List.suffix_rfl, Nat.le_succ _⟩
    · exact ⟨List.prefix_rfl, Nat.le_succ _, List.suffix_rfl, Nat.le_succ _⟩
    · have htaken : (takenPacket env s).toList.length ≤ 1 := Option.length_toList_le
      rw [hs.inContents_ticked, hs.outContents_ticked]
      refine ⟨List.prefix_append _ _, by rw [List.length_append]; omega, ?_⟩
      split
      · exact ⟨List.tail_suffix _, by rw [List.length_tail]; omega⟩
      · exact ⟨List.suffix_rfl, Nat.le_succ _⟩

end Sys2Proof.Machine
end

section
/-! PROOFS. Runs of several events, and the engine end to end (R153, R154, R195): an oversized request, a PING and its echo, quiescence, and one tick of
the reference schedule. -/

namespace Sys2Proof.Machine

section
variable {s t : State}

theorem runEvents_append (es fs : List Event) (s : State) : runEvents (es ++ fs) s = andThen (runEvents es s) (runEvents fs) := by
  induction es generalizing s with
  | nil => rfl
  | cons e es ih =>
    rw [List.cons_append, runEvents, runEvents]
    cases takeEvent e s with
    | next u => exact ih u
    | fault r => rfl
    | refused r => rfl

/-- An event that changes nothing changes nothing however often it comes. -/
theorem runEvents_of_fixed {e : Event} (h : takeEvent e s = .next s) (n : Nat) : runEvents (List.replicate n e) s = .next s := by
  induction n with
  | zero => rfl
  | succ n ih => rw [List.replicate_succ, runEvents, h, andThen_next, ih]

/-- PROCESS on a message that is not all there, without a budget: nothing changes (R150). -/
theorem process_of_pending (hs : s.Inv) (hg : gateOpen s = true) (hbudget : InBudget s) {p0 : Packet} {ps : List Packet}
    (hin : s.inContents = p0 :: ps) (h0 : isInitial p0 = true) (h : Attempt s.config s.inContents .pending) :
    takeEvent .process s = .next s := by
  have hscan := scanned_of_head_initial hin h0
  rw [process_of_attempt hs hg (by rwa [hscan]), hscan]
  exact handleOutcome_pending_of_inBudget hbudget _

end

/-- Settles O54: the attempt is pending, and a full INQ takes no packet in. -/
theorem oversizedRequestWedgesTheEngine : Obligations.OversizedRequestWedgesTheEngine := by
  intro s t p0 ps e hs hnone hin h0 hseq hfull hlong hreset h
  have hbudget : InBudget s := fun b hb => by rw [hnone] at hb; cases hb
  have hlen := hs.length_inContents
  rw [hin, hfull, List.length_cons] at hlen
  have hpending : Attempt s.config s.inContents .pending := hin ▸ .pending h0 hseq (by rw [npkts] at hlong; omega)
  have hprocess : takeEvent .process s = .next s := by
    rcases hg : gateOpen s with _ | _
    · exact takeEvent_process_of_closed hg
    · exact process_of_pending hs hg hbudget hin h0 hpending
  cases e with
  | reset => exact absurd rfl hreset
  | setConn c =>
    obtain rfl := Host.Outcome.next.inj h
    refine ⟨?_, fun he => by cases he⟩
    unfold setConn
    split <;> rfl
  | frame env =>
    refine ⟨?_, fun he => by cases he⟩
    rcases of_takeEvent_frame hs h with rfl | rfl | rfl
    · rfl
    · rfl
    · have htaken : takenPacket env s = none :=
        Option.eq_none_iff_forall_not_mem.2 fun p hp => (of_takenPacket_eq_some hp).1 hfull
      change pushAll s.config.queueLen s.inq (takenPacket env s).toList = s.inq
      rw [htaken, Option.toList_none, pushAll_nil]
  | process =>
    obtain rfl : s = t := Host.Outcome.next.inj (hprocess.symm.trans h)
    exact ⟨rfl, fun _ => rfl⟩

/-- The idle count after the scan and a retirement (R147, R148). -/
theorem idleCleared_scanned (s : State) : idleCleared (scanned s) = idleCleared s := by
  rw [idleCleared, idleCleared, scanned_config]
  split
  · rename_i hnone
    simp [scanned_eq, hnone]
  · rfl

/-- Settles O55: behind the strays the PING is a whole message; its command is the echo, and OUTQ has room for all of it. -/
theorem queuedPingIsEchoedWhole : Obligations.QueuedPingIsEchoedWhole := by
  intro s strays rest cid payload hs hg hfits hstrays hin hroom
  have hsc := hs.scanned
  have hg' : gateOpen (scanned s) = true := by rw [gateOpen_scanned, hg]
  have hhead : isContinuation (fragmentHead s.config ⟨cid, s.config.cmdPing, payload⟩) = false := by
    rw [isContinuation, (fragmentHead_header (m := ⟨cid, s.config.cmdPing, payload⟩) hfits).1, Bool.not_true]
  have hscanned : (scanned s).inContents = fragment s.config ⟨cid, s.config.cmdPing, payload⟩ ++ rest := by
    rw [hs.inContents_scanned, hin, List.append_assoc, List.dropWhile_append_of_pos (List.all_eq_true.1 hstrays), fragment_eq,
      List.cons_append, List.dropWhile_cons_of_neg (by rw [hhead]; exact Bool.false_ne_true)]
  have hattempt := attempt_fragment hs.reportSize (m := ⟨cid, s.config.cmdPing, payload⟩) hfits rest
  rw [← hscanned] at hattempt
  have hret := hsc.retire (npkts s.config payload.length)
  have hgret : gateOpen (retire (npkts s.config payload.length) (scanned s)) = true := by rw [gateOpen_retire, hg']
  have hecho : takeEvent .process s = .next ((retire (npkts s.config payload.length) (scanned s)).queued
      (fragment s.config ⟨cid, s.config.cmdPing, payload⟩)) := by
    have hping := exec_rspPing (payload := payload) hgret cid (by rwa [retire_config, scanned_config])
    rw [retire_config, scanned_config] at hping
    rw [process_of_attempt hs hg hattempt, handleOutcome, dispatch_eq_exec, retire_config, scanned_config, commandOf_ping hs.wf,
      Message.bcnt, exec_cmdPing hgret]
    exact hping
  refine ⟨_, hecho, ?_, ?_, ?_⟩
  · rw [queued_inContents]
    exact inContents_retire_of_append hsc hscanned (fragment_length _ _)
  · rw [hret.outContents_queued, retire_outContents, scanned_outContents, retire_config, scanned_config, List.take_of_length_le]
    rw [List.length_append, hs.length_outContents, fragment_length]
    exact hroom
  · change _ = ((s.withInq _).withOutq _).withIdleTicks (idleCleared s)
    rw [queued_inq, queued_outq, retire_inq, retire_outq, retire_eq, idleCleared_scanned, scanned_eq]
    rfl

/-! ## Quiescence -/

section
variable {s t : State}

/-- An attempt that comes to another state has set the fault or made INQ shorter; it opens and closes no gate but by the fault. -/
theorem Answered.progress (hs : s.Inv) (h : Answered s t) :
    (t = s ∧ (s.inContents = [] ∨ Attempt s.config s.inContents .pending)) ∨ t.fault = some .channelSpaceExhausted ∨
    (t.inq.len < s.inq.len ∧ gateOpen t = gateOpen s) := by
  cases h with
  | idle hin => exact .inl ⟨rfl, .inl hin⟩
  | waiting h => exact .inl ⟨rfl, .inr h⟩
  | abandoned h hb cid =>
    have hpos := h.length_pos_of_pending
    refine .inr (.inr ⟨?_, gateOpen_congr (by simp) (by simp)⟩)
    rw [errorStatus_inq, queued_inq]
    exact hs.retire_shorter (hs.length_inContents ▸ hpos) hpos
  | @broken bad n h =>
    obtain ⟨hn, hpos⟩ := h.pos_of_error
    refine .inr (.inr ⟨?_, gateOpen_congr (by simp) (by simp)⟩)
    rw [errorStatus_inq, queued_inq]
    exact hs.retire_shorter hn hpos
  | @dispatched m n t h hd =>
    obtain ⟨hn, hpos⟩ := h.pos_of_complete
    have hshort : t.inq.len < s.inq.len := by
      rw [hd.inq_eq.1]
      exact hs.retire_shorter hn hpos
    cases hd with
    | exhausted hcmd hlong hx => exact .inr (.inl rfl)
    | rejected hping hbcnt => exact .inr (.inr ⟨hshort, gateOpen_congr (by simp) (by simp)⟩)
    | served hcmd hlong hx => exact .inr (.inr ⟨hshort, gateOpen_congr (by simp) (by simp)⟩)
    | echoed hcmd => exact .inr (.inr ⟨hshort, gateOpen_congr (by simp) (by simp)⟩)

theorem scanned_inq_len_le (s : State) : (scanned s).inq.len ≤ s.inq.len := by
  simp [scanned_eq]

/-- A scan that discards something makes INQ shorter. -/
theorem scanned_eq_self_or_shorter (hs : s.Inv) : scanned s = s ∨ (scanned s).inq.len < s.inq.len := by
  by_cases hnone : s.inContents.takeWhile isContinuation = []
  · exact .inl (if_pos hnone)
  · have hlen := hs.length_inContents
    have htake : 0 < (s.inContents.takeWhile isContinuation).length := List.length_pos_iff.2 hnone
    have hle : (s.inContents.takeWhile isContinuation).length ≤ s.inContents.length :=
      (List.takeWhile_prefix isContinuation).length_le
    refine .inr ?_
    rw [scanned_eq, State.withIdleTicks_inq, State.withInq_inq, popN_len]
    omega

/-- A PROCESS event leaves the engine quiescent as it was, or stopped by the fault, or with fewer packets in INQ (R195). -/
theorem process_progress (hs : s.Inv) (hg : gateOpen s = true) (h : takeEvent .process s = .next t) :
    (t = s ∧ s.Quiescent) ∨ t.fault = some .channelSpaceExhausted ∨ (t.inq.len < s.inq.len ∧ gateOpen t = true) := by
  have hle := scanned_inq_len_le s
  rcases answered_of_process hs h with ⟨hclosed, _⟩ | ⟨_, hanswered⟩
  · rw [hg] at hclosed
    cases hclosed
  · rcases hanswered.progress hs.scanned with ⟨rfl, hrest⟩ | hfault | ⟨hshort, hgate⟩
    · rcases scanned_eq_self_or_shorter hs with hsame | hshort
      · rw [hsame] at hrest h
        exact .inl ⟨hsame, hrest.imp id fun hpending => hpending.reassemble_queue hs.wf hs.inq, h⟩
      · exact .inr (.inr ⟨hshort, by rw [gateOpen_scanned, hg]⟩)
    · exact .inr (.inl hfault)
    · exact .inr (.inr ⟨by omega, by rw [hgate, gateOpen_scanned, hg]⟩)

theorem quiescent_of_empty (hs : s.Inv) (hg : gateOpen s = true) (hin : s.inContents = []) : s.Quiescent :=
  ⟨.inl hin, process_of_empty hs hg hin⟩

/-- By induction on a bound of the packets in INQ: an event that neither stops nor rests uses one up. -/
theorem runEvents_process (n : Nat) (hs : s.Inv) (hg : gateOpen s = true) (hn : s.inq.len ≤ n) :
    ∃ t, runEvents (List.replicate n .process) s = .next t ∧ t.config = s.config ∧
      (t.fault = some .channelSpaceExhausted ∨ t.Quiescent) := by
  induction n generalizing s with
  | zero =>
    have hin : s.inContents = [] := contents_of_empty (Nat.le_zero.1 hn)
    exact ⟨s, rfl, rfl, .inr (quiescent_of_empty hs hg hin)⟩
  | succ n ih =>
    obtain ⟨u, hu, _⟩ := process_cases hs
    have hconfig := takeEvent_config hu
    have hrun : runEvents (List.replicate (n + 1) .process) s = runEvents (List.replicate n .process) u := by
      rw [List.replicate_succ, runEvents, hu, andThen_next]
    rw [hrun]
    rcases process_progress hs hg hu with ⟨rfl, hquiet⟩ | hfault | ⟨hshort, hopen⟩
    · exact ⟨u, runEvents_of_fixed hu n, rfl, .inr hquiet⟩
    · have hstopped : u.fault ≠ none := by rw [hfault]; exact Option.some_ne_none _
      exact ⟨u, runEvents_of_fixed (takeEvent_of_fault hstopped (by simp)) n, hconfig, .inl hfault⟩
    · obtain ⟨t, ht, htconfig, hend⟩ := ih (hs.takeEvent hu) hopen (by omega)
      exact ⟨t, ht, htconfig.trans hconfig, hend⟩

end

/-- Settles O56: INQ bounds the events by its own length; an OUTQ that was empty and is as it was is empty. -/
theorem processReachesQuiescence : Obligations.ProcessReachesQuiescence := by
  intro s hs hg
  obtain ⟨t, ht, hconfig, hend⟩ := runEvents_process s.inq.len hs hg le_rfl
  refine ⟨t, ht, hend.imp id fun hquiet => ⟨hquiet, fun hempty hout => ⟨hquiet, ?_⟩⟩⟩
  rw [outContents_congr hconfig hout, hempty]

/-! ## One tick of the reference schedule -/

/-- The FRAMEs before the tick only count (R142, R154). -/
theorem runEvents_counting {s : State} (hg : gateOpen s = true) (env : TransportAnswers) {n : Nat}
    (hn : s.tickDiv + n < s.config.tickDivider) :
    runEvents (List.replicate n (.frame env)) s = .next (s.withTickDiv (s.tickDiv + n)) := by
  induction n generalizing s with
  | zero => rfl
  | succ n ih =>
    have hframe := frameBetweenTicksOnlyCounts s env hg (by omega)
    have hrest := ih (s := s.withTickDiv (s.tickDiv + 1)) hg (by rw [State.withTickDiv_tickDiv, State.withTickDiv_config]; omega)
    rw [List.replicate_succ, runEvents, hframe, andThen_next, hrest, State.withTickDiv_tickDiv, Nat.add_right_comm, Nat.add_assoc]
    rfl

/-- What the transport answers in `TICK(rx, tx_ok)` when it has a packet (R154). -/
def hasPacket (p : Packet) (txOk : Bool) : TransportAnswers := ⟨true, some p, txOk, txOk⟩

/-- A tick with an empty INQ and a packet at hand: it is taken in, and the oldest packet of OUTQ is sent when the transport accepts it. -/
theorem tick_takes_packet {s : State} (hs : s.Inv) (hg : gateOpen s = true) (htick : s.tickDiv + 1 = s.config.tickDivider)
    (hempty : s.inContents = []) {p : Packet} (hp : p.length = s.config.reportSize) (txOk : Bool) :
    ∃ u, takeEvent (.frame (hasPacket p txOk)) s = .next u ∧
      u = ((((s.withTickDiv 0).withInq u.inq).withOutq u.outq).withIdleTicks u.idleTicks |>
        fun v => { v with outputs := u.outputs }) ∧
      u.inContents = [p] ∧ u.outContents = (if txOk then s.outContents.tail else s.outContents) ∧
      u.outputs = s.outputs ++ [.tryReceive (some p)] ++
        (if txOk then s.outContents.head?.toList.map (fun p => .trySend p true) else []) := by
  have hlen := hs.length_inContents
  obtain ⟨_, hcap, _⟩ := id hs.wf
  rw [hempty, List.length_nil] at hlen
  have hasked : (decide (s.inq.len < s.config.queueLen) && (hasPacket p txOk).dataAvailable) = true := by
    rw [hasPacket, Bool.and_true]
    exact decide_eq_true (by omega)
  obtain ⟨u, hu, hframe, hin, hout, houtputs, _⟩ := tickMovesAtMostOnePacketEachWay s (hasPacket p txOk) hs hg (decide_eq_true hp) htick
  simp only [hasked, if_true] at hin houtputs
  refine ⟨u, hu, hframe, by rw [hin, hempty]; rfl, ?_, ?_⟩
  · rw [hout]
    cases txOk with
    | false => rfl
    | true => cases s.outContents <;> rfl
  · rw [houtputs]
    cases txOk <;> rfl

/-- Settles O57: the FRAMEs count up to the tick, the tick takes the PING in and sends the oldest packet, and PROCESS echoes the PING. -/
theorem referenceTickEchoesAPing : Obligations.ReferenceTickEchoesAPing := by
  intro s cid payload txOk hs hg hdiv hempty hroom hshort hbcnt ping
  obtain ⟨_, _, hdivider, _⟩ := id hs.wf
  have hfits : payload.length ≤ s.config.maxPayload := by
    simp only [Config.maxPayload, Config.maxMsg]
    omega
  have hping : fragment s.config ⟨cid, s.config.cmdPing, payload⟩ = [ping] := fragment_of_short hshort
  have hcount : runEvents (List.replicate (s.config.tickDivider - 1) (.frame (hasPacket ping txOk))) s =
      .next (s.withTickDiv (s.config.tickDivider - 1)) := by
    rw [runEvents_counting hg _ (by omega), hdiv, Nat.zero_add]
  have hcounted : (s.withTickDiv (s.config.tickDivider - 1)).Inv := hs.withTickDiv (by omega)
  obtain ⟨u, hu, hframe, hin, hout, houtputs⟩ := tick_takes_packet hcounted hg (Nat.sub_add_cancel hdivider) hempty
    (p := ping) (mkInitial_length hs.reportSize _ _ _ hshort) txOk
  have hui : u.Inv := hcounted.takeEvent hu
  have hconfig : u.config = s.config := (takeEvent_config hu).trans (State.withTickDiv_config ..)
  have hcounter : u.chanCounter = s.chanCounter := by rw [hframe]; rfl
  have hdiv0 : u.tickDiv = 0 := by rw [hframe]; rfl
  have hgu : gateOpen u = true := by rw [hframe]; exact hg
  have hsent : u.outq.len ≤ s.outq.len := by
    rw [← hui.length_outContents, ← hs.length_outContents, hout]
    split
    · exact (List.tail_sublist _).length_le
    · exact le_rfl
  obtain ⟨t, ht, htin, htout, htframe⟩ := queuedPingIsEchoedWhole u [] [] cid payload hui hgu (by rwa [hconfig]) rfl
    (by rw [hconfig, hping, hin]; rfl) (by rw [hconfig, npkts, ncont_eq_zero hshort]; omega)
  obtain ⟨hfault, hconn⟩ := gateOpen_iff.1 hgu
  refine ⟨t, ?_, htin, ?_, ?_, ?_, ?_, ?_, ?_⟩
  · rw [referenceTick, runEvents_append]
    change andThen (runEvents (List.replicate _ (.frame (hasPacket ping txOk))) s)
      (runEvents [.frame (hasPacket ping txOk), .process]) = _
    rw [hcount, andThen_next, runEvents, hu, andThen_next, runEvents, ht]
    rfl
  · rw [htout, hout, hconfig, hping]
    rfl
  · rw [htframe]; exact hdiv0
  · rw [htframe]; exact hcounter
  · rw [htframe]; exact hfault
  · rw [htframe]; exact hconn
  · rw [htframe]; exact houtputs

end Sys2Proof.Machine
end

section
/-! PROOFS. Packets written out byte by byte (95_test_vectors.md): each is the encoding of its instruction, so the decoder gives that back. -/

namespace Sys2Proof.Machine

/-- Bytes that are the encoding of a well-formed instruction decode to it. -/
theorem decode_of_encode_eq {c : Config} (hc : c.wf) {i : Instr} {place : Place} {bs : List Byte} (hi : i.wf c = true) (hplace : i.place = place)
    (h : encode c i = bs) : decode c place bs = .ok i :=
  hplace ▸ h ▸ decodeOfEncodeIsTheInstruction c i hc hi

/-- The reference parameters with the capability byte 0, as the spec's vectors have it. -/
def vectorConfig : Config := { Config.reference with capabilities := 0 }

theorem vectorConfig_wf : vectorConfig.wf := by decide

/-- Settles O1: the bytes are what the encoder lays out. -/
theorem writtenPacketsDecode : Obligations.WrittenPacketsDecode := by
  refine ⟨?_, ?_, ?_, ?_, ?_, ?_, ?_, ?_, ?_, ?_⟩ <;> exact decode_of_encode_eq vectorConfig_wf (by decide) rfl (by decide)

end Sys2Proof.Machine
end
